-- ==== Sys2Proof/Config.lean ====
section
/-! DEFINITION. The parameters of the block (`00_scope.md` R7, R9, R10): the fixed values every model must use,
the operator and width tags, and the form of the configuration parameter SUPPORTED(op, N). LATENCY (R10, R212) has
no value at all: it is the place of the engine's turns in `State.inputs` (notes/assumptions/1.md). -/

namespace Sys2Proof

/-- The operator tags of R81, in the order of the OP field's values 0 to 11. -/
inductive Op where
  | add | sub | mul | div | mod | lt | gt | eq | ge | sqrt | log2 | modinv
  deriving DecidableEq, Repr

/-- The two operand widths of R7 and R82. -/
inductive Width where
  /-- W = 0: 512-bit operands, N = 2 limbs. -/
  | w512
  /-- W = 1: 1024-bit operands, N = 4 limbs. -/
  | w1024
  deriving DecidableEq, Repr

/-- The error categories of R180 that a command can end in (code 0, NONE, is the absence of one). -/
inductive ErrorCode where
  /-- Illegal or unsupported command word (R181). -/
  | invalidOp
  /-- Operand outside the operation's domain (R182). -/
  | domain
  /-- Result too large for its limb count (R183); never reached by a legal command (R112). -/
  | headroom
  deriving DecidableEq, Repr

/-- LIMB_BITS of R7. -/
def limbBits : Nat := 256

/-- LIMB_BASE of R7: the radix by which limbs are combined. -/
def limbBase : Nat := 2 ^ 256

/-- MODINV_MODULUS of R7 and R9: 2^512 = LIMB_BASE^2, at both widths. It is written as a product so that
Lean evaluates it without an exponent above its threshold. -/
def modinvModulus : Nat := limbBase * limbBase

/-- SUPPORTED(op, N) at one width, one truth value for each operation (R10). -/
structure SupportRow where
  add : Bool
  sub : Bool
  mul : Bool
  div : Bool
  mod : Bool
  lt : Bool
  gt : Bool
  eq : Bool
  ge : Bool
  sqrt : Bool
  log2 : Bool
  modinv : Bool
  deriving DecidableEq, Repr

/-- The configuration parameter SUPPORTED(op, N) of R10, for N = 2 and N = 4. It is fixed for the life of a block
(R20); a model receives it as an argument, which here is a field of State that no step writes. -/
structure Support where
  w512 : SupportRow
  w1024 : SupportRow
  deriving DecidableEq, Repr

/-- Every operation is implemented at one width. -/
def SupportRow.all : SupportRow :=
  { add := true, sub := true, mul := true, div := true, mod := true, lt := true, gt := true, eq := true,
    ge := true, sqrt := true, log2 := true, modinv := true }

/-- The default of R10: true for all 24 combinations. -/
def Support.all : Support := { w512 := SupportRow.all, w1024 := SupportRow.all }

end Sys2Proof
end

