-- ==== Sys2Proof/Word.lean ====
section
/-! DEFINITION. The word type of the register port and the two fixed-length formats of the block
(`30_encoding.md` R80): a 256-bit command word, and a host transaction of a 6-bit header and a 256-bit data
word. Only register contents have a width (`00_scope.md` R11). -/

namespace Sys2Proof

/-- One 256-bit word: a limb, the CMD word, the STATUS word or the data of a port transaction (R7, R50). -/
abbrev Word := BitVec 256

/-- A word address of the register port, 0x00 to 0x1F (R50). -/
abbrev Addr := BitVec 5

/-- The header of a host transaction: bit 5 is WE, bits 4 to 0 are ADDR (R80). -/
abbrev Header := BitVec 6

/-- The two formats of R80, as they are met before decoding. -/
inductive Packet where
  /-- Format CMDW: the word written to CMD and latched in LCMD. -/
  | cmdw (word : Word)
  /-- Format HTXN: one host transaction on the register port. -/
  | htxn (header : Header) (data : Word)
  deriving DecidableEq, Repr

end Sys2Proof
end

