-- ==== Sys2Proof/Syntax.lean ====
section
/-! DEFINITION. The instruction set: one constructor for each row of spec/opcode_table.json. The twenty-four commands
of `30_encoding.md` R85 carry no operand field (R84); a host transaction carries its address and, if it writes, its
data (R80, R87). -/

namespace Sys2Proof

/-- One instruction: a command, whose run is the engine's completion step (`40_codec.md` R107), or a host
transaction (`20_memory.md` R52, R53). -/
inductive Instr where
  /-- `add.512`, command word 0x00 (R130). -/
  | add512
  /-- `sub.512`, command word 0x01 (R131). -/
  | sub512
  /-- `mul.512`, command word 0x02 (R132). -/
  | mul512
  /-- `div.512`, command word 0x03 (R133). -/
  | div512
  /-- `mod.512`, command word 0x04 (R134). -/
  | mod512
  /-- `lt.512`, command word 0x05 (R150). -/
  | lt512
  /-- `gt.512`, command word 0x06 (R151). -/
  | gt512
  /-- `eq.512`, command word 0x07 (R152). -/
  | eq512
  /-- `ge.512`, command word 0x08 (R153). -/
  | ge512
  /-- `sqrt.512`, command word 0x09 (R160). -/
  | sqrt512
  /-- `log2.512`, command word 0x0A (R161). -/
  | log2512
  /-- `modinv.512`, command word 0x0B (R162). -/
  | modinv512
  /-- `add.1024`, command word 0x10 (R130). -/
  | add1024
  /-- `sub.1024`, command word 0x11 (R131). -/
  | sub1024
  /-- `mul.1024`, command word 0x12 (R132). -/
  | mul1024
  /-- `div.1024`, command word 0x13 (R133). -/
  | div1024
  /-- `mod.1024`, command word 0x14 (R134). -/
  | mod1024
  /-- `lt.1024`, command word 0x15 (R150). -/
  | lt1024
  /-- `gt.1024`, command word 0x16 (R151). -/
  | gt1024
  /-- `eq.1024`, command word 0x17 (R152). -/
  | eq1024
  /-- `ge.1024`, command word 0x18 (R153). -/
  | ge1024
  /-- `sqrt.1024`, command word 0x19 (R160). -/
  | sqrt1024
  /-- `log2.1024`, command word 0x1A (R161). -/
  | log21024
  /-- `modinv.1024`, command word 0x1B (R162). -/
  | modinv1024
  /-- `HOST_READ`: a read transaction at a word address (R52). -/
  | hostRead (addr : Addr)
  /-- `HOST_WRITE`: a write transaction of a whole word at a word address (R53). -/
  | hostWrite (addr : Addr) (data : Word)
  deriving DecidableEq, Repr

end Sys2Proof
end

