-- ==== Sys2Proof/Decode.lean ====
section
/-! DEFINITION. The decoder, total on every word of both formats and rejecting by name (`30_encoding.md` R80 to R90),
and after it the encoder, written from the table of words in R85. SUPPORTED is not looked at here: an unsupported
combination "is decoded exactly as this table says but completes with INVALID_OP" (R85), which the commands' shared
operation does (Machine/Completion.lean). -/

namespace Sys2Proof

/-- The instruction of an operator at a width: the rows of R85. -/
def commandInstr : Op → Width → Instr
  | .add, .w512 => .add512
  | .sub, .w512 => .sub512
  | .mul, .w512 => .mul512
  | .div, .w512 => .div512
  | .mod, .w512 => .mod512
  | .lt, .w512 => .lt512
  | .gt, .w512 => .gt512
  | .eq, .w512 => .eq512
  | .ge, .w512 => .ge512
  | .sqrt, .w512 => .sqrt512
  | .log2, .w512 => .log2512
  | .modinv, .w512 => .modinv512
  | .add, .w1024 => .add1024
  | .sub, .w1024 => .sub1024
  | .mul, .w1024 => .mul1024
  | .div, .w1024 => .div1024
  | .mod, .w1024 => .mod1024
  | .lt, .w1024 => .lt1024
  | .gt, .w1024 => .gt1024
  | .eq, .w1024 => .eq1024
  | .ge, .w1024 => .ge1024
  | .sqrt, .w1024 => .sqrt1024
  | .log2, .w1024 => .log21024
  | .modinv, .w1024 => .modinv1024

/-- Why a command word is rejected (R89); each reason gives INVALID_OP when the command completes (R86). -/
inductive DecodeError where
  /-- Some bit of RSV, bits 255 to 6, is set (R83). -/
  | reservedBits
  /-- OP is 12 to 15 (R81). -/
  | reservedOp
  /-- W is 2 or 3 (R82). -/
  | reservedWidth
  deriving DecidableEq, Repr

/-- The OP field, bits 3 to 0 of a command word (R80). -/
def opField (w : Word) : BitVec 4 := w.extractLsb' 0 4

/-- The W field, bits 5 to 4 of a command word (R80). -/
def widthField (w : Word) : BitVec 2 := w.extractLsb' 4 2

/-- The RSV field, bits 255 to 6 of a command word (R80). -/
def rsvField (w : Word) : BitVec 250 := w.extractLsb' 6 250

/-- The operation an OP value selects; 12 to 15 are reserved (R81). -/
def opOfField (f : BitVec 4) : Option Op :=
  match f.toNat with
  | 0 => some .add
  | 1 => some .sub
  | 2 => some .mul
  | 3 => some .div
  | 4 => some .mod
  | 5 => some .lt
  | 6 => some .gt
  | 7 => some .eq
  | 8 => some .ge
  | 9 => some .sqrt
  | 10 => some .log2
  | 11 => some .modinv
  | _ => none

/-- The width a W value selects; 2 and 3 are reserved (R82). -/
def widthOfField (f : BitVec 2) : Option Width :=
  match f.toNat with
  | 0 => some .w512
  | 1 => some .w1024
  | _ => none

/-- Decoding of a latched command word, total on all 2^256 words (R86). The order of the checks is of no
consequence, since every failing check gives INVALID_OP. -/
def decodeCommand (w : Word) : Except DecodeError Instr :=
  if rsvField w ≠ 0 then .error .reservedBits
  else match opOfField (opField w), widthOfField (widthField w) with
    | none, _ => .error .reservedOp
    | some _, none => .error .reservedWidth
    | some op, some width => .ok (commandInstr op width)

/-- The WE bit of a transaction header (R80). -/
def weBit (h : Header) : Bool := h.getLsbD 5

/-- The ADDR field of a transaction header (R80). -/
def addrField (h : Header) : Addr := h.extractLsb' 0 5

/-- Decoding of a host transaction: every one of the 64 headers is legal (R87). The data word of a read is the word
returned, not an input (R80), so it is not looked at. -/
def decodeTxn (h : Header) (data : Word) : Instr :=
  match weBit h with
  | true => .hostWrite (addrField h) data
  | false => .hostRead (addrField h)

/-- Decoding of a packet of either format. -/
def decode : Packet → Except DecodeError Instr
  | .cmdw word => decodeCommand word
  | .htxn header data => .ok (decodeTxn header data)

/-- The packet of an instruction: the command words of R85, and the header `WE * 0x20 + ADDR` of R80 with its data
word (zero for a read, which takes none). -/
def encode : Instr → Packet
  | .add512 => .cmdw 0x00#256
  | .sub512 => .cmdw 0x01#256
  | .mul512 => .cmdw 0x02#256
  | .div512 => .cmdw 0x03#256
  | .mod512 => .cmdw 0x04#256
  | .lt512 => .cmdw 0x05#256
  | .gt512 => .cmdw 0x06#256
  | .eq512 => .cmdw 0x07#256
  | .ge512 => .cmdw 0x08#256
  | .sqrt512 => .cmdw 0x09#256
  | .log2512 => .cmdw 0x0A#256
  | .modinv512 => .cmdw 0x0B#256
  | .add1024 => .cmdw 0x10#256
  | .sub1024 => .cmdw 0x11#256
  | .mul1024 => .cmdw 0x12#256
  | .div1024 => .cmdw 0x13#256
  | .mod1024 => .cmdw 0x14#256
  | .lt1024 => .cmdw 0x15#256
  | .gt1024 => .cmdw 0x16#256
  | .eq1024 => .cmdw 0x17#256
  | .ge1024 => .cmdw 0x18#256
  | .sqrt1024 => .cmdw 0x19#256
  | .log21024 => .cmdw 0x1A#256
  | .modinv1024 => .cmdw 0x1B#256
  | .hostRead addr => .htxn (0#1 ++ addr) 0#256
  | .hostWrite addr data => .htxn (1#1 ++ addr) data

/-- The packet that `nbits` table bits of value `w` stand for. A row of 256 bits is a command word. Any other row is
a host transaction of R80's 262 bits, laid out as its 6-bit header and then its data word (notes/assumptions/6.md):
bits 5 to 0 are the header and bits 261 to 6 the data. A value of `nbits` bits is below `2 ^ nbits`, so the bits above
are zero. -/
def tablePacket (nbits w : Nat) : Packet :=
  if nbits = 256 then .cmdw (BitVec.ofNat 256 w)
  else .htxn (BitVec.ofNat 6 w) (BitVec.ofNat 256 (w / 64))

/-- The instruction the decoder reads from `nbits` bits numbered as spec/opcode_table.json numbers them. -/
def decodeTableWord (nbits w : Nat) : Option Instr :=
  match decode (tablePacket nbits w) with
  | .ok i => some i
  | .error _ => none

end Sys2Proof
end

