-- ==== Sys2Proof/Machine/Numeric.lean ====
section
/-! DEFINITION. The arithmetic primitives of `00_scope.md` R14 on naturals, by exact integer algorithms as
`43_special.md` R163 asks. The algorithms are the model's (notes/assumptions/9.md); the values are the spec's. Floor
division and remainder are Lean's own on Nat. -/

namespace Sys2Proof.Machine

/-- One digit of the square root: from the root of `a / 4` to the root of `a`. -/
def isqrtDigit (a r : Nat) : Nat :=
  if (2 * r + 1) * (2 * r + 1) ≤ a then 2 * r + 1 else 2 * r

/-- The square root, bit by bit, of an `a` below `4 ^ fuel`. -/
def isqrtFuel : Nat → Nat → Nat
  | 0, _ => 0
  | fuel + 1, a => isqrtDigit a (isqrtFuel fuel (a / 4))

/-- `isqrt(a)`: the r with `r² ≤ a < (r+1)²` (R14). -/
def isqrt (a : Nat) : Nat := isqrtFuel (Nat.log2 a / 2 + 1) a

/-- `bitlen(a)`: for a > 0 the k with `2^(k−1) ≤ a < 2^k` (R14). -/
def bitlen (a : Nat) : Nat := if a = 0 then 0 else Nat.log2 a + 1

/-- One Newton step towards the inverse of `b` modulo `m`: `x` becomes `x · (2 − b·x)`. -/
def invDouble (m b x : Nat) : Nat := x * (m + 2 - b * x % m) % m

/-- `steps` Newton steps from 1: for odd b, right modulo `2 ^ (2 ^ steps)`. -/
def invNewton (m b : Nat) : Nat → Nat
  | 0 => 1
  | steps + 1 => invDouble m b (invNewton m b steps)

/-- `inv_m(b)` for m = 2^512 and b odd: the r below m with `(b·r) mod m = 1` (R14). Nine doublings of one right bit
give the 512 bits of the modulus. -/
def invMod (b : Nat) : Nat := invNewton modinvModulus (b % modinvModulus) 9

end Sys2Proof.Machine
end

