-- ==== Sys2Proof/Machine/Codec.lean ====
section
/-! DEFINITION. The Limb Codec (`40_codec.md` R100, R101, R111). -/

namespace Sys2Proof.Machine

/-- `reconstruct(L, n)` for the n limbs of the list, least significant first (R100). -/
def reconstruct : List Word → Nat
  | [] => 0
  | limb :: rest => limb.toNat + limbBase * reconstruct rest

/-- The loop of R101: the limbs of `v` from limb `k − 1` down to limb 0, most significant first. -/
def decomposeDown : Nat → Nat → List Word
  | 0, _ => []
  | k + 1, v => BitVec.ofNat 256 (v / limbBase ^ k) :: decomposeDown k (v % limbBase ^ k)

/-- `decompose(v, k)`: k limbs, least significant first, or HEADROOM for a value that does not fit, which is "never
wrapped, truncated or absorbed into the top limb" (R101, R111). -/
def decompose (v k : Nat) : Except ErrorCode (List Word) :=
  if limbBase ^ k ≤ v then .error .headroom else .ok (decomposeDown k v).reverse

end Sys2Proof.Machine
end

