-- ==== Sys2Proof/Machine/State.lean ====
section
/-! DEFINITION. The state of the block as plain data (`10_state.md` R20, R38), the inputs it waits for, and the
configuration parameter SUPPORTED. The block has no memory, no program counter, no flags and no general registers
(R34 to R36, R50), so State has none. -/

namespace Sys2Proof.Machine

/-- The fields of STATUS (R25). Bits 255 to 12 are no storage: they always read 0 (`statusWord`). -/
structure Status where
  /-- A command has been accepted and has not completed (R26). -/
  busy : Bool
  /-- The most recently accepted command has completed (R27). -/
  done : Bool
  /-- It completed with an error (R28). -/
  err : Bool
  /-- A CMD write was refused since the last accepted one; sticky (R29). -/
  ovr : Bool
  /-- Its error code (R30). -/
  ecode : BitVec 4
  /-- Its result limb count (R31). -/
  rlc : BitVec 4
  deriving DecidableEq, Repr

/-- STATUS after reset: every field 0 (R38). -/
def Status.reset : Status := { busy := false, done := false, err := false, ovr := false, ecode := 0, rlc := 0 }

/-- What the outside world presents to the block, one item a step (notes/assumptions/1.md). -/
inductive Input where
  /-- A host transaction, in the format HTXN of R80, not yet decoded. -/
  | txn (header : Header) (data : Word)
  /-- The engine's turn: its completion step falls here if it is enabled (R61, R106, R212). -/
  | engine
  /-- The reset input is asserted (R200). -/
  | reset
  deriving DecidableEq, Repr

/-- All the state of one block. The first eight fields are the architectural state of R20; the last three are the
model's own: the configuration SUPPORTED, the inputs still to come, and the word the port last returned. -/
structure State where
  /-- A[0..3], the left operand's limbs (R21). -/
  a : Vector Word 4
  /-- B[0..3], the right operand's limbs (R22). -/
  b : Vector Word 4
  /-- CMD, the last accepted command word (R24). -/
  cmd : Word
  /-- STATUS (R25). -/
  status : Status
  /-- R[0..7], the result's limbs (R32). -/
  r : Vector Word 8
  /-- LA[0..3], A as it was at acceptance (R33). -/
  la : Vector Word 4
  /-- LB[0..3], B as it was at acceptance (R33). -/
  lb : Vector Word 4
  /-- LCMD, the accepted command word (R33). -/
  lcmd : Word
  /-- SUPPORTED(op, N), fixed for the life of the block (R10, R20). -/
  support : Support
  /-- Host transactions, engine turns and resets still to come, the next one first. -/
  inputs : List Input
  /-- The word returned by the last read transaction (R52). -/
  readData : Word
  deriving DecidableEq, Repr

/-- The block has no faults: "No behaviour of the block is `any value` or `stuck`" (93_implementation_defined.md), and
an error is an outcome recorded in STATUS (R187). The type has no constructor, so no step can end in one: safe. -/
inductive Fault where
  deriving DecidableEq, Repr

/-- Why a step has no meaning. -/
inductive Refusal where
  /-- Raised only by an arm of `exec` whose instruction has no meaning yet; no arm is left in that state. Safe: the
  machine stops where the block goes on. -/
  | notModelled (mnemonic : String)
  deriving DecidableEq, Repr

/-- The block right after reset: every piece of state 0 and no command in progress (R38, R200), the default
configuration of R10, nothing presented to it yet. -/
def State.reset : State :=
  { a := Vector.replicate 4 0
    b := Vector.replicate 4 0
    cmd := 0
    status := Status.reset
    r := Vector.replicate 8 0
    la := Vector.replicate 4 0
    lb := Vector.replicate 4 0
    lcmd := 0
    support := Support.all
    inputs := []
    readData := 0 }

end Sys2Proof.Machine
end

