-- ==== Sys2Proof/Machine/Flags.lean ====
section
/-! DEFINITION. STATUS: its word, its error codes and its updates. The block has no arithmetic flags
(`10_state.md` R36); these are all the status bits there are. -/

namespace Sys2Proof.Machine

/-- The codes of R180. -/
def errorCode : ErrorCode → BitVec 4
  | .invalidOp => 1
  | .domain => 2
  | .headroom => 3

/-- The 256-bit word a host reads at STATUS: BUSY[0], DONE[1], ERR[2], OVR[3], ECODE[7:4], RLC[11:8], and 0 above
(R25). -/
def statusWord (st : Status) : Word :=
  0#244 ++ st.rlc ++ st.ecode ++ BitVec.ofBool st.ovr ++ BitVec.ofBool st.err ++ BitVec.ofBool st.done ++
    BitVec.ofBool st.busy

/-- STATUS at acceptance: BUSY set, everything else cleared (R103). -/
def Status.accepted : Status :=
  { busy := true, done := false, err := false, ovr := false, ecode := 0, rlc := 0 }

/-- STATUS after a refused CMD write: only OVR changes (R104). -/
def Status.overrun (st : Status) : Status := { st with ovr := true }

/-- STATUS after a successful completion with `k` result limbs; OVR is unchanged (R109). -/
def Status.succeeded (st : Status) (k : Nat) : Status :=
  { st with rlc := BitVec.ofNat 4 k, busy := false, done := true, err := false, ecode := 0 }

/-- STATUS after an error completion; OVR is unchanged (R186). -/
def Status.failed (st : Status) (c : ErrorCode) : Status :=
  { st with rlc := 0, ecode := errorCode c, err := true, done := true, busy := false }

end Sys2Proof.Machine
end

