-- ==== Sys2Proof/Machine/Operands.lean ====
section
/-! DEFINITION. Operand forms: what a word address of the register port names (`20_memory.md` R51), what it reads as
(R52), and the two operands of a command, taken from the latches by the limb codec (`30_encoding.md` R84). -/

namespace Sys2Proof.Machine

/-- What an address of the register port names (R51). -/
inductive PortReg where
  | a (i : Fin 4)
  | b (i : Fin 4)
  | cmd
  | status
  | r (i : Fin 8)
  | reserved
  deriving DecidableEq, Repr

/-- The address map of R51. -/
def portReg (addr : Addr) : PortReg :=
  if h : addr.toNat < 4 then .a ⟨addr.toNat, h⟩
  else if h : addr.toNat - 4 < 4 then .b ⟨addr.toNat - 4, h⟩
  else if addr.toNat = 8 then .cmd
  else if addr.toNat = 9 then .status
  else if h : 16 ≤ addr.toNat ∧ addr.toNat - 16 < 8 then .r ⟨addr.toNat - 16, h.2⟩
  else .reserved

/-- The word `HostRead(addr)` returns (R52); a reserved address reads as 0 (R54). -/
def portRead (addr : Addr) (s : State) : Word :=
  match portReg addr with
  | .a i => s.a[i]
  | .b i => s.b[i]
  | .cmd => s.cmd
  | .status => statusWord s.status
  | .r i => s.r[i]
  | .reserved => 0

/-- N, the operand limb count of a width (R7, R82). -/
def limbCount : Width → Nat
  | .w512 => 2
  | .w1024 => 4

/-- The left operand `a = reconstruct(LA, N)` (R84): the limbs above N take no part (R23). -/
def operandA (w : Width) (s : State) : Nat := reconstruct (s.la.toList.take (limbCount w))

/-- The right operand `b = reconstruct(LB, N)` (R84). -/
def operandB (w : Width) (s : State) : Nat := reconstruct (s.lb.toList.take (limbCount w))

/-- SUPPORTED(op, N) in one row of the configuration (R10). -/
def rowSupports (row : SupportRow) : Op → Bool
  | .add => row.add
  | .sub => row.sub
  | .mul => row.mul
  | .div => row.div
  | .mod => row.mod
  | .lt => row.lt
  | .gt => row.gt
  | .eq => row.eq
  | .ge => row.ge
  | .sqrt => row.sqrt
  | .log2 => row.log2
  | .modinv => row.modinv

/-- SUPPORTED(op, N) (R10). -/
def supported (c : Support) (op : Op) : Width → Bool
  | .w512 => rowSupports c.w512 op
  | .w1024 => rowSupports c.w1024 op

end Sys2Proof.Machine
end

