-- ==== Sys2Proof/Machine/OpFn.lean ====
section
/-! DEFINITION. The operation functions: `OPFN(op, a, b, N)` and `RLC(op, N)` of `40_codec.md` R108 and R110, one
definition per operation, from the family rules of `41_arith.md`, `42_compare.md` and `43_special.md`. Every value is
an exact natural (R11, R135). -/

namespace Sys2Proof.Machine

/-- add: exact, with one limb of carry headroom (R130). -/
def addValue (a b : Nat) : Nat := a + b

/-- sub: `(2^256)^N` on underflow (R131). -/
def subValue (w : Width) (a b : Nat) : Nat := if b ≤ a then a - b else limbBase ^ limbCount w

/-- mul: exact and full width (R132). -/
def mulValue (a b : Nat) : Nat := a * b

/-- The zero-divisor substitution, "treat right as 1" (R133, R134). -/
def divisorOf (b : Nat) : Nat := if b = 0 then 1 else b

/-- div: floor quotient (R133). -/
def divValue (a b : Nat) : Nat := a / divisorOf b

/-- mod: floor remainder (R134). -/
def modValue (a b : Nat) : Nat := a % divisorOf b

/-- lt (R150). -/
def ltValue (a b : Nat) : Nat := if a < b then 1 else 0

/-- gt (R151). -/
def gtValue (a b : Nat) : Nat := if b < a then 1 else 0

/-- eq (R152). -/
def eqValue (a b : Nat) : Nat := if a = b then 1 else 0

/-- ge (R153). -/
def geValue (a b : Nat) : Nat := if b ≤ a then 1 else 0

/-- sqrt: exact, rounded down (R160). -/
def sqrtValue (a : Nat) : Nat := isqrt a

/-- log2: exact, rounded down; DOMAIN at 0 (R161, R182). -/
def log2Value (a : Nat) : Except ErrorCode Nat := if a = 0 then .error .domain else .ok (bitlen a - 1)

/-- modinv: the inverse modulo 2^512; DOMAIN for an even operand, 0 among them (R162, R182). -/
def modinvValue (b : Nat) : Except ErrorCode Nat := if b % 2 = 0 then .error .domain else .ok (invMod b)

/-- `OPFN(op, a, b, N)` (R108). sqrt and log2 read the left operand only, modinv the right one only (R81). -/
def opFn (op : Op) (w : Width) (a b : Nat) : Except ErrorCode Nat :=
  match op with
  | .add => .ok (addValue a b)
  | .sub => .ok (subValue w a b)
  | .mul => .ok (mulValue a b)
  | .div => .ok (divValue a b)
  | .mod => .ok (modValue a b)
  | .lt => .ok (ltValue a b)
  | .gt => .ok (gtValue a b)
  | .eq => .ok (eqValue a b)
  | .ge => .ok (geValue a b)
  | .sqrt => .ok (sqrtValue a)
  | .log2 => log2Value a
  | .modinv => modinvValue b

/-- `RLC(op, N)`: 2N for mul, N + 1 for every other operation (R110). -/
def rlc (op : Op) (w : Width) : Nat :=
  match op with
  | .mul => 2 * limbCount w
  | .add => limbCount w + 1
  | .sub => limbCount w + 1
  | .div => limbCount w + 1
  | .mod => limbCount w + 1
  | .lt => limbCount w + 1
  | .gt => limbCount w + 1
  | .eq => limbCount w + 1
  | .ge => limbCount w + 1
  | .sqrt => limbCount w + 1
  | .log2 => limbCount w + 1
  | .modinv => limbCount w + 1

end Sys2Proof.Machine
end

