-- ==== Sys2Proof/Machine/Ops.lean ====
section
/-! DEFINITION. The named operations over the block's registers: acceptance and overrun of a CMD write, the two
completions, reset, and the host's operand writes. The error completion is the block's one form of taking an
exception (`60_exceptions.md` R186, R187); there is no return from it but the next acceptance (R188). -/

namespace Sys2Proof.Machine

/-- The word the port returns is kept for the host; no state of the block changes (R52, R56). -/
def State.setReadData (s : State) (v : Word) : State := { s with readData := v }

/-- The inputs that remain after one has been taken. -/
def State.setInputs (s : State) (rest : List Input) : State := { s with inputs := rest }

/-- `A[i] <- v` (R53). -/
def State.writeA (s : State) (i : Fin 4) (v : Word) : State := { s with a := s.a.set i v }

/-- `B[i] <- v` (R53). -/
def State.writeB (s : State) (i : Fin 4) (v : Word) : State := { s with b := s.b.set i v }

/-- `accept(v)`: CMD and the latches take the word and the operands, STATUS becomes BUSY, R keeps the previous result
(R103, R105). -/
def State.accept (s : State) (v : Word) : State :=
  { s with cmd := v, lcmd := v, la := s.a, lb := s.b, status := Status.accepted }

/-- A CMD write while BUSY = 1 performs only `STATUS.OVR <- 1` (R104). -/
def State.overrun (s : State) : State := { s with status := s.status.overrun }

/-- A write of `v` to CMD (R53). -/
def State.writeCmd (s : State) (v : Word) : State := if s.status.busy then s.overrun else s.accept v

/-- The result file and STATUS are written in the same step and nothing else is (R58). -/
def State.finish (s : State) (r : Vector Word 8) (st : Status) : State := { s with r := r, status := st }

/-- The result file that holds the limbs of a list from R[0] upward and 0 above them (R109). -/
def resultFile (limbs : List Word) : Vector Word 8 :=
  #v[limbs.getD 0 0, limbs.getD 1 0, limbs.getD 2 0, limbs.getD 3 0, limbs.getD 4 0, limbs.getD 5 0,
    limbs.getD 6 0, limbs.getD 7 0]

/-- `success_complete(L, k)` (R109). -/
def State.successComplete (s : State) (limbs : List Word) (k : Nat) : State :=
  s.finish (resultFile limbs) (s.status.succeeded k)

/-- `error_complete(c)`: R is cleared, the code is recorded, and the block is idle again (R186). It saves no program
counter and goes nowhere, because the block has none (R187). -/
def State.errorComplete (s : State) (c : ErrorCode) : State :=
  s.finish (Vector.replicate 8 0) (s.status.failed c)

/-- Asserting reset sets every piece of architectural state to its value of R38, whatever it was; a command in
progress is abandoned (R200, R201). The configuration is fixed for the life of the block (R20); the inputs to come
and the word the host kept are not the block's (notes/assumptions/5.md). -/
def State.assertReset (s : State) : State :=
  { State.reset with support := s.support, inputs := s.inputs, readData := s.readData }

/-- `HostRead(addr)` (R52). -/
def State.hostRead (s : State) (addr : Addr) : State := s.setReadData (portRead addr s)

/-- `HostWrite(addr, v)` (R53): a write to a read-only or reserved address has no effect (R54, R55). -/
def State.hostWrite (s : State) (addr : Addr) (v : Word) : State :=
  match portReg addr with
  | .a i => s.writeA i v
  | .b i => s.writeB i v
  | .cmd => s.writeCmd v
  | .status => s
  | .r _ => s
  | .reserved => s

end Sys2Proof.Machine
end

