-- ==== Sys2Proof/Machine/Completion.lean ====
section
/-! DEFINITION. The engine's completion step for a decoded command (`40_codec.md` R107), shared by the meanings of all
twenty-four. Whether the step is enabled (BUSY = 1) and what LCMD decodes to is Step.lean's. -/

namespace Sys2Proof.Machine

/-- The limbs a command computes from the latches, or the one error it reports: INVALID_OP for an unsupported
combination before any operand is read, then DOMAIN, then HEADROOM (R107, R181, R185). -/
def computeResult (op : Op) (w : Width) (s : State) : Except ErrorCode (List Word) :=
  if supported s.support op w then
    match opFn op w (operandA w s) (operandB w s) with
    | .ok value => decompose value (rlc op w)
    | .error c => .error c
  else .error .invalidOp

/-- The state after the completion step of a decoded command: its whole result, or R cleared and the error recorded
(R107, R109, R186). -/
def completeState (op : Op) (w : Width) (s : State) : State :=
  match computeResult op w s with
  | .ok limbs => s.successComplete limbs (rlc op w)
  | .error c => s.errorComplete c

/-- The completion step of a decoded command always takes a next state (R106, R107). -/
def complete (op : Op) (w : Width) (s : State) : Host.Outcome State Fault Refusal :=
  .next (completeState op w s)

end Sys2Proof.Machine
end

