-- ==== Sys2Proof/Machine/Arith.lean ====
section
/-! DEFINITION. The meanings of the arith commands at both widths (`41_arith.md` R130 to R135): the completion step of R107
with the operation's function of R108 (Machine/OpFn.lean). -/

namespace Sys2Proof.Machine

/-- `add.512` (R130). -/
def execAdd512 (s : State) : Host.Outcome State Fault Refusal := complete .add .w512 s

/-- `add.1024` (R130). -/
def execAdd1024 (s : State) : Host.Outcome State Fault Refusal := complete .add .w1024 s

/-- `sub.512` (R131). -/
def execSub512 (s : State) : Host.Outcome State Fault Refusal := complete .sub .w512 s

/-- `sub.1024` (R131). -/
def execSub1024 (s : State) : Host.Outcome State Fault Refusal := complete .sub .w1024 s

/-- `mul.512` (R132). -/
def execMul512 (s : State) : Host.Outcome State Fault Refusal := complete .mul .w512 s

/-- `mul.1024` (R132). -/
def execMul1024 (s : State) : Host.Outcome State Fault Refusal := complete .mul .w1024 s

/-- `div.512` (R133). -/
def execDiv512 (s : State) : Host.Outcome State Fault Refusal := complete .div .w512 s

/-- `div.1024` (R133). -/
def execDiv1024 (s : State) : Host.Outcome State Fault Refusal := complete .div .w1024 s

/-- `mod.512` (R134). -/
def execMod512 (s : State) : Host.Outcome State Fault Refusal := complete .mod .w512 s

/-- `mod.1024` (R134). -/
def execMod1024 (s : State) : Host.Outcome State Fault Refusal := complete .mod .w1024 s

end Sys2Proof.Machine
end

