-- ==== Sys2Proof/Machine/Compare.lean ====
section
/-! DEFINITION. The meanings of the compare commands at both widths (`42_compare.md` R150 to R154): the completion step of R107
with the operation's function of R108 (Machine/OpFn.lean). -/

namespace Sys2Proof.Machine

/-- `lt.512` (R150). -/
def execLt512 (s : State) : Host.Outcome State Fault Refusal := complete .lt .w512 s

/-- `lt.1024` (R150). -/
def execLt1024 (s : State) : Host.Outcome State Fault Refusal := complete .lt .w1024 s

/-- `gt.512` (R151). -/
def execGt512 (s : State) : Host.Outcome State Fault Refusal := complete .gt .w512 s

/-- `gt.1024` (R151). -/
def execGt1024 (s : State) : Host.Outcome State Fault Refusal := complete .gt .w1024 s

/-- `eq.512` (R152). -/
def execEq512 (s : State) : Host.Outcome State Fault Refusal := complete .eq .w512 s

/-- `eq.1024` (R152). -/
def execEq1024 (s : State) : Host.Outcome State Fault Refusal := complete .eq .w1024 s

/-- `ge.512` (R153). -/
def execGe512 (s : State) : Host.Outcome State Fault Refusal := complete .ge .w512 s

/-- `ge.1024` (R153). -/
def execGe1024 (s : State) : Host.Outcome State Fault Refusal := complete .ge .w1024 s

end Sys2Proof.Machine
end

