-- ==== Sys2Proof/Machine/HostPort.lean ====
section
/-! DEFINITION. The meanings of the two host transactions (`20_memory.md` R52, R53). They never raise an error (R190)
and are the same in every state (R192). -/

namespace Sys2Proof.Machine

/-- HOST_READ (R52). -/
def execHostRead (addr : Addr) (s : State) : Host.Outcome State Fault Refusal := .next (s.hostRead addr)

/-- HOST_WRITE (R53). -/
def execHostWrite (addr : Addr) (data : Word) (s : State) : Host.Outcome State Fault Refusal :=
  .next (s.hostWrite addr data)

end Sys2Proof.Machine
end

