-- ==== Sys2Proof/Machine/Special.lean ====
section
/-! DEFINITION. The meanings of the special commands at both widths (`43_special.md` R160 to R163): the completion step of R107
with the operation's function of R108 (Machine/OpFn.lean). -/

namespace Sys2Proof.Machine

/-- `sqrt.512` (R160). -/
def execSqrt512 (s : State) : Host.Outcome State Fault Refusal := complete .sqrt .w512 s

/-- `sqrt.1024` (R160). -/
def execSqrt1024 (s : State) : Host.Outcome State Fault Refusal := complete .sqrt .w1024 s

/-- `log2.512` (R161). -/
def execLog2512 (s : State) : Host.Outcome State Fault Refusal := complete .log2 .w512 s

/-- `log2.1024` (R161). -/
def execLog21024 (s : State) : Host.Outcome State Fault Refusal := complete .log2 .w1024 s

/-- `modinv.512` (R162). -/
def execModinv512 (s : State) : Host.Outcome State Fault Refusal := complete .modinv .w512 s

/-- `modinv.1024` (R162). -/
def execModinv1024 (s : State) : Host.Outcome State Fault Refusal := complete .modinv .w1024 s

end Sys2Proof.Machine
end

