-- ==== Sys2Proof/Machine/Dispatch.lean ====
section
/-! DEFINITION. exec: one arm per constructor of Instr, each one direct call of that instruction's meaning. A command's
meaning is the engine's completion step for it (`40_codec.md` R107); a host transaction's is `20_memory.md` R52 or R53. -/

namespace Sys2Proof.Machine

def exec (i : Instr) (s : State) : Host.Outcome State Fault Refusal :=
  match i with
  | .add512 => Sys2Proof.Machine.execAdd512 s
  | .sub512 => Sys2Proof.Machine.execSub512 s
  | .mul512 => Sys2Proof.Machine.execMul512 s
  | .div512 => Sys2Proof.Machine.execDiv512 s
  | .mod512 => Sys2Proof.Machine.execMod512 s
  | .lt512 => Sys2Proof.Machine.execLt512 s
  | .gt512 => Sys2Proof.Machine.execGt512 s
  | .eq512 => Sys2Proof.Machine.execEq512 s
  | .ge512 => Sys2Proof.Machine.execGe512 s
  | .sqrt512 => Sys2Proof.Machine.execSqrt512 s
  | .log2512 => Sys2Proof.Machine.execLog2512 s
  | .modinv512 => Sys2Proof.Machine.execModinv512 s
  | .add1024 => Sys2Proof.Machine.execAdd1024 s
  | .sub1024 => Sys2Proof.Machine.execSub1024 s
  | .mul1024 => Sys2Proof.Machine.execMul1024 s
  | .div1024 => Sys2Proof.Machine.execDiv1024 s
  | .mod1024 => Sys2Proof.Machine.execMod1024 s
  | .lt1024 => Sys2Proof.Machine.execLt1024 s
  | .gt1024 => Sys2Proof.Machine.execGt1024 s
  | .eq1024 => Sys2Proof.Machine.execEq1024 s
  | .ge1024 => Sys2Proof.Machine.execGe1024 s
  | .sqrt1024 => Sys2Proof.Machine.execSqrt1024 s
  | .log21024 => Sys2Proof.Machine.execLog21024 s
  | .modinv1024 => Sys2Proof.Machine.execModinv1024 s
  | .hostRead addr => Sys2Proof.Machine.execHostRead addr s
  | .hostWrite addr data => Sys2Proof.Machine.execHostWrite addr data s

end Sys2Proof.Machine
end

