-- ==== Sys2Proof/Machine/Turn.lean ====
section
/-! DEFINITION. What the engine meets on its turn (`40_codec.md` R106, R107), and how an instruction is placed where the
next step takes it (notes/assumptions/7.md). -/

namespace Sys2Proof.Machine

/-- What the engine's turn finds. -/
inductive EngineTurn where
  /-- BUSY = 0: no step is enabled (R106). -/
  | idle
  /-- BUSY = 1 and LCMD is an illegal word (R89). -/
  | illegal
  /-- BUSY = 1 and LCMD decodes to a command (R86). -/
  | run (i : Instr)
  deriving DecidableEq, Repr

/-- The engine reads BUSY and decodes LCMD (R106, R107). -/
def engineCommand (s : State) : EngineTurn :=
  if s.status.busy then
    match decodeCommand s.lcmd with
    | .ok i => .run i
    | .error _ => .illegal
  else .idle

/-- STATUS with a command in progress; its other fields as they were. -/
def Status.inProgress (st : Status) : Status := { st with busy := true }

/-- Place a packet so that the very next step runs it. -/
def State.place (s : State) : Packet → State
  | .cmdw word => { s with lcmd := word, status := s.status.inProgress, inputs := .engine :: s.inputs }
  | .htxn header data => { s with inputs := .txn header data :: s.inputs }

end Sys2Proof.Machine
end

