-- ==== Sys2Proof/Machine/Step.lean ====
section
/-! DEFINITION. One step of the block: it takes the next input. The two agents are the host and the engine
(`00_scope.md` R8); the list of inputs says whose turn it is (notes/assumptions/1.md). -/

namespace Sys2Proof.Machine

/-- The engine's turn. Its completion step is enabled exactly while BUSY = 1 (R26, R106): it decodes LCMD, and an
illegal word completes with INVALID_OP (R107, R181). While BUSY = 0 "the engine has no step" (R26): nothing changes. -/
def engineTurn (s : State) : Host.Outcome State Fault Refusal :=
  match engineCommand s with
  | .idle => .next s
  | .illegal => .next (s.errorComplete .invalidOp)
  | .run i => exec i s

/-- One step. With no input left the engine has the turn, so every accepted command completes (R106, R212). -/
def step (s : State) : Host.Outcome State Fault Refusal :=
  match s.inputs with
  | [] => engineTurn s
  | .txn header data :: rest => exec (decodeTxn header data) (s.setInputs rest)
  | .engine :: rest => engineTurn (s.setInputs rest)
  | .reset :: rest => .next (s.setInputs rest).assertReset

/-- `s` with an instruction placed where the next step fetches it: a command in LCMD, in progress, with the engine's
turn next; a host transaction at the head of the inputs. -/
def State.withFetchWord (s : State) (nbits w : Nat) : State := s.place (tablePacket nbits w)

end Sys2Proof.Machine
end

