-- ==== Sys2Proof/HostSyntax.lean ====
section
/-! DEFINITION. The host side's notation: the lines of a host program (`30_encoding.md` R92) and the
pseudo-instructions (R93). These belong to the host, not to the block (R35, R92): the block only ever meets the
transactions that `wr` and `rd` lines make. -/

namespace Sys2Proof

/-- A position's name in a host program; names are numbers (notes/assumptions/10.md). -/
abbrev Label := Nat

/-- `<reg>` of R92: a named register, or `@0xNN` for a raw word address. -/
inductive HostReg where
  | a (i : Fin 4)
  | b (i : Fin 4)
  | cmd
  | status
  | r (i : Fin 8)
  | raw (addr : Nat)
  deriving DecidableEq, Repr

/-- One line of a host program (R92). -/
inductive HostLine where
  /-- `wr <reg>, <value>`: a write transaction. -/
  | wr (reg : HostReg) (value : Nat)
  /-- `rd <reg>`: a read transaction; the host keeps the word. -/
  | rd (reg : HostReg)
  /-- `<label>:` names a position; it is no transaction. -/
  | label (name : Label)
  /-- `bnz <reg-read>, <mask>, <label>`: a host-side branch. -/
  | bnz (reg : HostReg) (mask : Nat) (target : Label)
  /-- `jmp <label>`: a host-side unconditional branch. -/
  | jmp (target : Label)
  /-- `halt`: the end of the host program. -/
  | halt
  deriving DecidableEq, Repr

/-- The pseudo-instructions of R93. `wait` and `op` take the name of the label their polling loop defines. -/
inductive Pseudo where
  | cmd (op : Op) (width : Width)
  | lda (width : Width) (value : Nat)
  | ldb (width : Width) (value : Nat)
  | wait (loop : Label)
  | getr (k : Nat)
  | op (op : Op) (width : Width) (left right : Nat) (loop : Label)
  deriving DecidableEq, Repr

end Sys2Proof
end

