-- ==== Sys2Proof/Machine/HostProgram.lean ====
section
/-! DEFINITION. The host side of the port: the assembler's mnemonics (`30_encoding.md` R91), the host lines with their
transactions (R92), the pseudo-instructions' expansions (R93), and a host that runs a program against a block. The
branches are the host's (R35): the block meets only the transactions. -/

namespace Sys2Proof.Machine

/-- The operator's mnemonic (R81). -/
def opName : Op → String
  | .add => "add"
  | .sub => "sub"
  | .mul => "mul"
  | .div => "div"
  | .mod => "mod"
  | .lt => "lt"
  | .gt => "gt"
  | .eq => "eq"
  | .ge => "ge"
  | .sqrt => "sqrt"
  | .log2 => "log2"
  | .modinv => "modinv"

/-- The width's suffix (R91). -/
def widthName : Width → String
  | .w512 => "512"
  | .w1024 => "1024"

/-- `<op>.<width>` (R91). -/
def commandMnemonic (op : Op) (w : Width) : String := opName op ++ "." ++ widthName w

/-- The twelve operations in the order of OP (R81). -/
def allOps : List Op := [.add, .sub, .mul, .div, .mod, .lt, .gt, .eq, .ge, .sqrt, .log2, .modinv]

/-- The 24 legal combinations (R85). -/
def allCommands : List (Op × Width) :=
  allOps.map (fun op => (op, .w512)) ++ allOps.map (fun op => (op, .w1024))

/-- The CMD word of a packet, 0 for a transaction. -/
def packetWord : Packet → Word
  | .cmdw word => word
  | .htxn _ _ => 0

/-- The CMD word the assembler emits for a command (R85, R91). -/
def commandWord (op : Op) (w : Width) : Word := packetWord (encode (commandInstr op w))

/-- The assembler's word for a mnemonic, if it is one (R91). -/
def assembleCommand (mnemonic : String) : Option Word :=
  match allCommands.find? (fun c => commandMnemonic c.1 c.2 == mnemonic) with
  | some c => some (commandWord c.1 c.2)
  | none => none

/-- `addr(reg)` (R51, R92). -/
def regAddr : HostReg → Addr
  | .a i => BitVec.ofNat 5 i.val
  | .b i => BitVec.ofNat 5 (4 + i.val)
  | .cmd => 8
  | .status => 9
  | .r i => BitVec.ofNat 5 (16 + i.val)
  | .raw addr => BitVec.ofNat 5 addr

/-- The transaction of a line, header and data; the host's own lines have none (R92). -/
def lineTxn : HostLine → Option (Header × Word)
  | .wr reg value => some (1#1 ++ regAddr reg, BitVec.ofNat 256 value)
  | .rd reg => some (0#1 ++ regAddr reg, 0)
  | .label _ => none
  | .bnz _ _ _ => none
  | .jmp _ => none
  | .halt => none

/-- Write lines for a list of limbs, from limb `i` upward, in increasing limb order (R93). -/
def loadLines (reg : Fin 4 → HostReg) : Nat → List Word → List HostLine
  | _, [] => []
  | i, limb :: rest => .wr (reg (Fin.ofNat 4 i)) limb.toNat :: loadLines reg (i + 1) rest

/-- `lda` and `ldb`: the N limbs of `decompose(v, N)` (R93). R93 gives a value that does not fit no expansion: that it is
ill-formed (`Pseudo.wf`) and has no lines is the model's DESIGN CHOICE (notes/assumptions/10.md). -/
def loadOperand (reg : Fin 4 → HostReg) (w : Width) (v : Nat) : List HostLine :=
  match decompose v (limbCount w) with
  | .ok limbs => loadLines reg 0 limbs
  | .error _ => []

/-- `getr <k>`: `rd R0` to `rd R(k−1)` (R93). R93 is silent on k above 8, where there is no such limb: that it is
ill-formed (`Pseudo.wf`), and that the limb's index is then taken modulo 8, so that R0 is read again after R7, is the
model's DESIGN CHOICE (notes/assumptions/10.md). -/
def getrLines (k : Nat) : List HostLine := (List.range k).map (fun i => .rd (.r (Fin.ofNat 8 i)))

/-- `cmd <op>.<width>` (R93). -/
def cmdLines (op : Op) (w : Width) : List HostLine := [.wr .cmd (commandWord op w).toNat]

/-- `wait`: read STATUS until BUSY = 0 (R93). -/
def waitLines (loop : Label) : List HostLine := [.label loop, .rd .status, .bnz .status 1 loop]

/-- The expansions of R93. R93 gives `op.<width>` with an operand that does not fit no expansion: that it is ill-formed
(`Pseudo.wf`), and that its expansion then leaves out that operand's writes only and keeps the other operand's, the CMD
write, the wait and the reads, is the model's DESIGN CHOICE (notes/assumptions/10.md). -/
def expand : Pseudo → List HostLine
  | .cmd op w => cmdLines op w
  | .lda w v => loadOperand .a w v
  | .ldb w v => loadOperand .b w v
  | .wait loop => waitLines loop
  | .getr k => getrLines k
  | .op op w left right loop =>
    loadOperand .a w left ++ loadOperand .b w right ++ cmdLines op w ++ waitLines loop ++ [.rd .status] ++
      getrLines (rlc op w)

/-- A host in the middle of its program: the next line's index, and every word it has read, the last one first. -/
structure HostCtl where
  prog : List HostLine
  pos : Nat
  reads : List (Addr × Word)
  deriving DecidableEq, Repr

/-- Why a host takes no further line. -/
inductive HostStop where
  /-- `halt`, the end of the host program (R92). -/
  | halted
  /-- The lines have run out without a `halt`. -/
  | endOfProgram
  /-- A branch to a label the program does not define; `programWf` refuses such a program. -/
  | undefinedLabel
  /-- `bnz` on a register the host has not read: R92 speaks of the last word read and there is none. -/
  | neverRead
  /-- The block answered no next state. It always answers one. -/
  | blockStopped
  deriving DecidableEq, Repr

/-- The index of the first line that defines a label. R92 is silent on a label defined twice; `programWf` refuses such a
program, and that the first definition is taken here is the model's DESIGN CHOICE (notes/assumptions/10.md). -/
def labelPos : List HostLine → Label → Option Nat
  | [], _ => none
  | line :: rest, name =>
    if line = .label name then some 0 else (labelPos rest name).map (· + 1)

/-- The last word the host read from an address. -/
def lastRead : List (Addr × Word) → Addr → Option Word
  | [], _ => none
  | entry :: rest, addr => if entry.1 = addr then some entry.2 else lastRead rest addr

/-- The host goes on at the next line. -/
def HostCtl.advance (h : HostCtl) : HostCtl := { h with pos := h.pos + 1 }

/-- The host goes on at a label. -/
def HostCtl.jumpTo (h : HostCtl) (target : Label) : Except HostStop HostCtl :=
  match labelPos h.prog target with
  | some n => .ok { h with pos := n }
  | none => .error .undefinedLabel

/-- The block takes one input now; its own list of inputs is left as it was. -/
def present (input : Input) (s : State) : Except HostStop State :=
  match step (s.setInputs (input :: s.inputs)) with
  | .next t => .ok t
  | .fault _ => .error .blockStopped
  | .refused _ => .error .blockStopped

/-- The host issues one transaction: it is the block's next input. -/
def performTxn (header : Header) (data : Word) (s : State) : Except HostStop State := present (.txn header data) s

/-- One line of the host's program, run against a block (R92): the host's turn and nothing else. When the engine has a
turn between two lines is said in Machine/HostSystem.lean. -/
def hostStep (h : HostCtl) (s : State) : Except HostStop (HostCtl × State) :=
  match h.prog[h.pos]? with
  | none => .error .endOfProgram
  | some .halt => .error .halted
  | some (.label _) => .ok (h.advance, s)
  | some (.jmp target) =>
    match h.jumpTo target with
    | .ok h' => .ok (h', s)
    | .error e => .error e
  | some (.bnz reg mask target) =>
    match lastRead h.reads (regAddr reg) with
    | none => .error .neverRead
    | some word =>
      if word &&& BitVec.ofNat 256 mask = 0 then .ok (h.advance, s)
      else match h.jumpTo target with
        | .ok h' => .ok (h', s)
        | .error e => .error e
  | some (.wr reg value) =>
    match performTxn (1#1 ++ regAddr reg) (BitVec.ofNat 256 value) s with
    | .ok t => .ok (h.advance, t)
    | .error e => .error e
  | some (.rd reg) =>
    match performTxn (0#1 ++ regAddr reg) 0 s with
    | .ok t => .ok ({ h.advance with reads := (regAddr reg, t.readData) :: h.reads }, t)
    | .error e => .error e

end Sys2Proof.Machine
end

