-- ==== Sys2Proof/Machine/HostSystem.lean ====
section
/-! DEFINITION. The host and the block together: a host program whose lines interleave with the engine's completion step
and with reset (`00_scope.md` R8, `20_memory.md` R61, `70_reset_and_hazards.md` R212). Which transaction the host issues
next depends on what it has read, so no list of inputs can say it in advance: the list here says only whose turn it is
(notes/assumptions/16.md). -/

namespace Sys2Proof.Machine

/-- Who moves next. -/
inductive Turn where
  /-- The host runs one line of its program. -/
  | host
  /-- The engine: its completion step, if it is enabled (R106). -/
  | engine
  /-- The reset input is asserted (R200). -/
  | reset
  deriving DecidableEq, Repr

/-- A host with its program, the block it drives, and whose turns come first. -/
structure System where
  host : HostCtl
  /-- Why the host takes no further line, once it takes none. The block goes on all the same. -/
  stopped : Option HostStop
  block : State
  /-- The turns to come, the next one first: LATENCY (R10, R212) is the place of the engine's turns. -/
  turns : List Turn
  deriving DecidableEq, Repr

/-- The turns that remain after one has been taken. -/
def System.setTurns (c : System) (rest : List Turn) : System := { c with turns := rest }

/-- The host runs its next line against the block, or stops; a host that has stopped does nothing. -/
def System.hostTurn (c : System) : System :=
  match c.stopped with
  | some _ => c
  | none =>
    match hostStep c.host c.block with
    | .ok (h, s) => { c with host := h, block := s }
    | .error e => { c with stopped := some e }

/-- The block takes an input that is not the host's; the host stays where it is. -/
def System.blockTurn (input : Input) (c : System) : System :=
  match present input c.block with
  | .ok s => { c with block := s }
  | .error e => { c with stopped := some e }

/-- One turn of the agent it is given to. -/
def System.takeTurn (c : System) : Turn → System
  | .host => c.hostTurn
  | .engine => c.blockTurn .engine
  | .reset => c.blockTurn .reset

/-- Whose turn it is when none is listed: the engine's while a command is in progress, so that every accepted command
completes (weak fairness, R106, R212), and the host's otherwise. -/
def System.fairTurn (c : System) : Turn := if c.block.status.busy then .engine else .host

/-- One step of the host and the block together. The completion step may fall after any number of the host's
transactions, and falls at some time (R212). -/
def systemStep (c : System) : System :=
  match c.turns with
  | turn :: rest => (c.setTurns rest).takeTurn turn
  | [] => c.takeTurn c.fairTurn

/-- `k` steps of the host and the block together. -/
def systemRun : Nat → System → System
  | 0, c => c
  | k + 1, c => systemRun k (systemStep c)

/-- A host at the first line of its program, a block right after reset (R203), and a choice of turns. -/
def System.start (prog : List HostLine) (turns : List Turn) : System :=
  { host := { prog := prog, pos := 0, reads := [] }, stopped := none, block := State.reset, turns := turns }

end Sys2Proof.Machine
end

