-- ==== Sys2Proof/Machine/Instances.lean ====
section
/-! DEFINITION. Several instances of the block side by side: each has its own port and registers, they share no state,
and a step is a step of one of them (`20_memory.md` R66, `60_exceptions.md` R196). -/

namespace Sys2Proof.Machine

/-- One step of instance `i`; with no such instance, nothing happens. -/
def stepInstance (i : Nat) (blocks : List State) : Host.Outcome (List State) Fault Refusal :=
  match blocks[i]? with
  | none => .next blocks
  | some s =>
    match step s with
    | .next t => .next (blocks.set i t)
    | .fault f => .fault f
    | .refused f => .refused f

end Sys2Proof.Machine
end

