-- ==== Sys2Proof/Safety.lean ====
section
/-! DEFINITION. The terms the claims use: what it is for a command to succeed or to fail, what a completion keeps, and
the invariant of the block's registers. A run of this block is safe in every state, since no step faults or is refused;
what can go wrong is an error recorded in STATUS. -/

namespace Sys2Proof

open Sys2Proof.Machine

/-- The number an operator has in the OP field: the order of the list in R81. -/
def opNumber : Op → Nat
  | .add => 0
  | .sub => 1
  | .mul => 2
  | .div => 3
  | .mod => 4
  | .lt => 5
  | .gt => 6
  | .eq => 7
  | .ge => 8
  | .sqrt => 9
  | .log2 => 10
  | .modinv => 11

/-- The number a width has in the W field (R82). -/
def widthNumber : Width → Nat
  | .w512 => 0
  | .w1024 => 1

/-- A command word is illegal: "OP in 12 to 15, or W in 2 to 3, or any RSV bit set" (R89), on the word as a number. -/
def IllegalWord (word : Word) : Prop :=
  12 ≤ word.toNat % 16 ∨ 2 ≤ word.toNat / 16 % 4 ∨ word.toNat / 64 ≠ 0

/-- The value the first `k` result limbs hold. -/
def resultValue (t : State) (k : Nat) : Nat := reconstruct (t.r.toList.take k)

/-- The result file is 0 from limb `k` upward. -/
def ZeroFrom (t : State) (k : Nat) : Prop := ∀ j : Fin 8, k ≤ j.val → t.r[j] = 0

/-- Everything but R and STATUS is as it was: A, B, CMD, the latches and the configuration, and the model's own
fields. -/
def KeepsAllButResult (s t : State) : Prop :=
  t.a = s.a ∧ t.b = s.b ∧ t.cmd = s.cmd ∧ t.la = s.la ∧ t.lb = s.lb ∧ t.lcmd = s.lcmd ∧ t.support = s.support ∧
    t.inputs = s.inputs ∧ t.readData = s.readData

/-- STATUS after a successful completion with `k` limbs (R109): BUSY = 0, DONE = 1, ERR = 0, ECODE = 0, RLC = k, OVR
as it was. -/
def successStatus (s : State) (k : Nat) : Status :=
  { busy := false, done := true, err := false, ovr := s.status.ovr, ecode := 0, rlc := BitVec.ofNat 4 k }

/-- STATUS after an error completion (R186): BUSY = 0, DONE = 1, ERR = 1, ECODE = the code, RLC = 0, OVR as it was. -/
def failureStatus (s : State) (code : BitVec 4) : Status :=
  { busy := false, done := true, err := true, ovr := s.status.ovr, ecode := code, rlc := 0 }

/-- The instruction completes successfully in `s` with `k` result limbs of value `v`, zeros above them, and a property
of the state it leaves; it changes nothing but R and STATUS. -/
def SucceedsWith (i : Instr) (s : State) (k v : Nat) (p : State → Prop) : Prop :=
  ∃ t, exec i s = .next t ∧ resultValue t k = v ∧ ZeroFrom t k ∧ t.status = successStatus s k ∧
    KeepsAllButResult s t ∧ p t

/-- The instruction completes successfully in `s` with `k` result limbs of value `v`. -/
def Succeeds (i : Instr) (s : State) (k v : Nat) : Prop := SucceedsWith i s k v (fun _ => True)

/-- The instruction completes in `s` with an error: R is all 0, the code is recorded, nothing else changes. -/
def FailsWith (i : Instr) (s : State) (code : BitVec 4) : Prop :=
  ∃ t, exec i s = .next t ∧ ZeroFrom t 0 ∧ t.status = failureStatus s code ∧ KeepsAllButResult s t

/-- Two states of STATUS that agree in every field but OVR (R113). -/
def AgreeButOvr (x y : Status) : Prop :=
  x.busy = y.busy ∧ x.done = y.done ∧ x.err = y.err ∧ x.ecode = y.ecode ∧ x.rlc = y.rlc

/-- It is the engine's turn: the next input says so, or no input is left. -/
def EngineNext (s : State) : Prop := s.inputs = [] ∨ ∃ rest, s.inputs = .engine :: rest

/-- Reset is asserted next. -/
def ResetNext (s : State) : Prop := ∃ rest, s.inputs = .reset :: rest

/-- The host's next transaction is a write of `v` at `addr`. -/
def WriteNext (s : State) (addr : Addr) (v : Word) : Prop := ∃ rest, s.inputs = .txn (1#1 ++ addr) v :: rest

/-- The registers of the block are in order. -/
structure RegistersInOrder (s : State) : Prop where
  /-- BUSY and DONE are never both 1 (R27). -/
  busy_not_done : s.status.busy = true → s.status.done = false
  /-- ERR = 1 implies DONE = 1 (R28). -/
  err_done : s.status.err = true → s.status.done = true
  /-- ERR = 1 implies ECODE ≠ 0, and ERR = 0 implies ECODE = 0 (R28). -/
  err_code : s.status.err = true ↔ s.status.ecode ≠ 0
  /-- Only NONE, INVALID_OP and DOMAIN are ever recorded: codes 4 to 15 are never produced (R30) and HEADROOM is never
  raised (R112). -/
  code_produced : s.status.ecode = 0 ∨ s.status.ecode = 1 ∨ s.status.ecode = 2
  /-- After a success RLC is one of the four counts (R31). -/
  rlc_success : s.status.done = true → s.status.err = false →
    s.status.rlc = 3 ∨ s.status.rlc = 4 ∨ s.status.rlc = 5 ∨ s.status.rlc = 8
  /-- RLC is 0 after an error completion, after acceptance and after reset (R31). -/
  rlc_otherwise : s.status.done = false ∨ s.status.err = true → s.status.rlc = 0
  /-- Once a command has completed, R is 0 from limb RLC upward (R32, R208), all of it after an error (R186). -/
  zero_above : s.status.done = true → ZeroFrom s s.status.rlc.toNat
  /-- LCMD is the word read at CMD (R24, R33). -/
  latched : s.lcmd = s.cmd
  /-- With neither BUSY nor DONE no command has been accepted since reset: R, CMD and STATUS hold their reset values
  (R27, R32, R38). -/
  fresh : s.status.busy = false → s.status.done = false → ZeroFrom s 0 ∧ s.cmd = 0 ∧ s.status.ovr = false

/-- The host's transactions as inputs. -/
def txnInputs (txns : List (Header × Word)) : List Input := txns.map (fun x => .txn x.1 x.2)

/-- The transactions of a list of host lines, issued one after another. -/
def performLines : List HostLine → State → Except HostStop State
  | [], s => .ok s
  | line :: rest, s =>
    match lineTxn line with
    | none => performLines rest s
    | some (header, data) =>
      match performTxn header data s with
      | .ok t => performLines rest t
      | .error e => .error e

end Sys2Proof
end

