-- ==== Sys2Proof/Certificates/Slice0/Obligations.lean ====
section
/-! DEFINITION. The statements for the provers, from the numbered rules of spec/. -/

open Sys2Proof Sys2Proof.Machine

/-! ### Encoding (30_encoding.md) -/

/-- Words written out from the spec's tables decode to the instructions they stand for: two rows of R85, and the headers
`0x28` (write CMD) and `0x09` (read STATUS) of R80 and R51. -/
def Obligations.WrittenWordsDecode : Prop :=
  decode (.cmdw 0x04#256) = .ok .mod512 ∧ decode (.cmdw 0x17#256) = .ok .eq1024 ∧
    decode (.cmdw 0x1B#256) = .ok .modinv1024 ∧ decode (.htxn 0x28#6 0x10#256) = .ok (.hostWrite 0x08#5 0x10#256) ∧
    decode (.htxn 0x09#6 0x00#256) = .ok (.hostRead 0x09#5)

/-- R80 to R90: over every packet of both formats and every instruction, a packet decodes to an instruction exactly if
it is that instruction's encoding, or a read header of its address with any data word (a read takes none, R80). -/
def Obligations.DecodeEncodeAgree : Prop :=
  ∀ (p : Packet) (i : Instr),
    decode p = .ok i ↔ p = encode i ∨ ∃ addr data, i = .hostRead addr ∧ p = .htxn (0#1 ++ addr) data

/-- R85, R88: a command word is legal exactly if it is `OP | (W << 4)` for one of the twelve operators and one of the
two widths, and then it decodes to that operator's command at that width. -/
def Obligations.LegalWordsAreTheTable : Prop :=
  ∀ (word : Word) (i : Instr),
    decodeCommand word = .ok i ↔
      ∃ op w, i = commandInstr op w ∧ word.toNat = opNumber op + 16 * widthNumber w

/-- R87: every one of the 64 headers is a legal transaction, a write if bit 5 is set and a read if not, at the address
in bits 4 to 0. -/
def Obligations.TransactionHeadersTotal : Prop :=
  ∀ (h : Header) (data : Word),
    (32 ≤ h.toNat → decode (.htxn h data) = .ok (.hostWrite (BitVec.ofNat 5 (h.toNat % 32)) data)) ∧
    (h.toNat < 32 → decode (.htxn h data) = .ok (.hostRead (BitVec.ofNat 5 h.toNat)))

/-! ### A step -/

/-- R106, R107: on the engine's turn, while BUSY = 1, the step is the run of the command LCMD decodes to (the turn's
input, if there is one, is taken first; that no input left is the engine's turn is notes/assumptions/2.md). -/
def Obligations.EngineTurnRunsDecodedCommand : Prop :=
  ∀ (s : State) (i : Instr), s.status.busy = true → decodeCommand s.lcmd = .ok i →
    (s.inputs = [] → step s = exec i s) ∧
    ∀ rest, s.inputs = .engine :: rest → step s = exec i { s with inputs := rest }

/-- R61, R87: on the host's turn the step is the run of the transaction its header and data decode to, whatever the
state. -/
def Obligations.HostTurnRunsDecodedTransaction : Prop :=
  ∀ (s : State) (h : Header) (data : Word) (rest : List Input) (i : Instr),
    s.inputs = .txn h data :: rest → decode (.htxn h data) = .ok i → step s = exec i { s with inputs := rest }

/-- R26, R106: while BUSY = 0 the engine has no step, so its turn changes nothing (that such a turn is a step that
changes nothing is the model's form, notes/assumptions/2.md). -/
def Obligations.IdleEngineChangesNothing : Prop :=
  ∀ s : State, s.status.busy = false →
    (s.inputs = [] → step s = .next s) ∧ ∀ rest, s.inputs = .engine :: rest → step s = .next { s with inputs := rest }

/-- R181: on the engine's turn while BUSY = 1 the step completes, and it records INVALID_OP exactly if LCMD is
an illegal word or a combination that SUPPORTED rules out; then R is cleared, and nothing but R and STATUS changes. -/
def Obligations.InvalidOpExactlyWhenIllegalOrUnsupported : Prop :=
  ∀ (s : State) (rest : List Input), s.status.busy = true → s.inputs = .engine :: rest →
    ∃ t, step s = .next t ∧ t.status.busy = false ∧ t.status.done = true ∧
      (t.status.ecode = 1 ↔ IllegalWord s.lcmd ∨
        ∃ op w, s.lcmd.toNat = opNumber op + 16 * widthNumber w ∧ supported s.support op w = false) ∧
      (t.status.ecode = 1 → ZeroFrom t 0 ∧ t.status = failureStatus s 1) ∧
      KeepsAllButResult { s with inputs := rest } t

/-- Every step of every state answers a next state: no behaviour of the block is stuck (93_implementation_defined.md),
host transactions never raise an error (R190) and every command completes. -/
def Obligations.EveryStepHasNextState : Prop := ∀ s : State, ∃ t, step s = .next t

/-! ### Reset (70_reset_and_hazards.md) -/

/-- R38: what every piece of state holds after reset; and bits 255 to 12 of STATUS are 0 always. -/
def Obligations.ResetValues : Prop :=
  (∀ i : Fin 4, State.reset.a[i] = 0 ∧ State.reset.b[i] = 0 ∧ State.reset.la[i] = 0 ∧ State.reset.lb[i] = 0) ∧
    (∀ j : Fin 8, State.reset.r[j] = 0) ∧ State.reset.cmd = 0 ∧ State.reset.lcmd = 0 ∧
    State.reset.status.busy = false ∧ State.reset.status.done = false ∧ State.reset.status.err = false ∧
    State.reset.status.ovr = false ∧ State.reset.status.ecode = 0 ∧ State.reset.status.rlc = 0 ∧
    statusWord State.reset.status = 0 ∧ ∀ st : Status, (statusWord st).toNat < 2 ^ 12

/-- R200: asserting reset, in any state and while a command is in progress too, sets in one step every piece of
architectural state to its value of R38, and no command is in progress; the configuration, which is no state of the
block (R20), stays. -/
def Obligations.ResetClearsEverything : Prop :=
  ∀ s : State, ResetNext s →
    ∃ t, step s = .next t ∧ t.a = State.reset.a ∧ t.b = State.reset.b ∧ t.cmd = 0 ∧ t.status = Status.reset ∧
      t.r = State.reset.r ∧ t.la = State.reset.la ∧ t.lb = State.reset.lb ∧ t.lcmd = 0 ∧ t.support = s.support

/-! ### The register port (20_memory.md) -/

/-- R52, R56: a read of each of the 32 addresses answers the register's word, 0 at a reserved address, and changes
no state of the block (where the model keeps the word returned is its own field readData, notes/assumptions/3.md). -/
def Obligations.HostReadReturnsWord : Prop :=
  ∀ s : State,
    (∀ i : Fin 4, exec (.hostRead (BitVec.ofNat 5 i)) s = .next { s with readData := s.a[i] }) ∧
    (∀ i : Fin 4, exec (.hostRead (BitVec.ofNat 5 (4 + i))) s = .next { s with readData := s.b[i] }) ∧
    exec (.hostRead 0x08#5) s = .next { s with readData := s.cmd } ∧
    exec (.hostRead 0x09#5) s = .next { s with readData := statusWord s.status } ∧
    (∀ i : Fin 8, exec (.hostRead (BitVec.ofNat 5 (0x10 + i))) s = .next { s with readData := s.r[i] }) ∧
    ∀ addr : Addr, (0x0A ≤ addr.toNat ∧ addr.toNat ≤ 0x0F) ∨ 0x18 ≤ addr.toNat →
      exec (.hostRead addr) s = .next { s with readData := 0 }

/-- R25: the word read at STATUS has BUSY, DONE, ERR and OVR in bits 0 to 3, ECODE in bits 7 to 4, RLC in bits 11 to 8,
and nothing above. -/
def Obligations.StatusWordLayout : Prop :=
  ∀ st : Status,
    (statusWord st).toNat =
      st.busy.toNat + 2 * st.done.toNat + 4 * st.err.toNat + 8 * st.ovr.toNat + 16 * st.ecode.toNat +
        256 * st.rlc.toNat

/-- R21, R22, R53: a write at 0x00 to 0x07 sets that one limb of A or B, also while BUSY, and changes nothing else; a
read of the same address then returns the word. -/
def Obligations.OperandWriteSetsOneLimb : Prop :=
  ∀ (s : State) (i : Fin 4) (v : Word),
    exec (.hostWrite (BitVec.ofNat 5 i) v) s = .next { s with a := s.a.set i v } ∧
    exec (.hostWrite (BitVec.ofNat 5 (4 + i)) v) s = .next { s with b := s.b.set i v } ∧
    (∃ t, exec (.hostRead (BitVec.ofNat 5 i)) { s with a := s.a.set i v } = .next t ∧ t.readData = v) ∧
    ∃ t, exec (.hostRead (BitVec.ofNat 5 (4 + i))) { s with b := s.b.set i v } = .next t ∧ t.readData = v

/-- R103: a write of any word to CMD while BUSY = 0 is accepted: CMD and LCMD take it, LA and LB take A and B, STATUS is
BUSY alone, and R keeps the previous result. -/
def Obligations.CommandWriteAccepted : Prop :=
  ∀ (s : State) (v : Word), s.status.busy = false →
    exec (.hostWrite 0x08#5 v) s = .next
      { s with
        cmd := v, lcmd := v, la := s.a, lb := s.b,
        status := { busy := true, done := false, err := false, ovr := false, ecode := 0, rlc := 0 } }

/-- R104: a write to CMD while BUSY = 1 performs only `STATUS.OVR <- 1`. -/
def Obligations.CommandWriteRefused : Prop :=
  ∀ (s : State) (v : Word), s.status.busy = true →
    exec (.hostWrite 0x08#5 v) s = .next { s with status := { s.status with ovr := true } }

/-- R54, R55: a write to STATUS, to R[0..7] or to a reserved address has no effect, and a reserved address reads as 0
(the word read is in readData, notes/assumptions/3.md). -/
def Obligations.ReadOnlyAndReservedWritesIgnored : Prop :=
  ∀ (s : State) (addr : Addr) (v : Word),
    (0x09 ≤ addr.toNat → exec (.hostWrite addr v) s = .next s) ∧
    ((0x0A ≤ addr.toNat ∧ addr.toNat ≤ 0x0F) ∨ 0x18 ≤ addr.toNat →
      exec (.hostRead addr) s = .next { s with readData := 0 })

/-- R57: a write to A or B done twice leaves the state of one, and a write to CMD done twice does not (it sets OVR). -/
def Obligations.OperandWritesIdempotent : Prop :=
  (∀ (s t : State) (addr : Addr) (v : Word), addr.toNat < 8 → exec (.hostWrite addr v) s = .next t →
    exec (.hostWrite addr v) t = .next t) ∧
  ∀ (s t : State) (v : Word), s.status.busy = false → exec (.hostWrite 0x08#5 v) s = .next t →
    exec (.hostWrite 0x08#5 v) t ≠ .next t

/-! ### Parameters (00_scope.md) and the limb codec (40_codec.md) -/

/-- R7, R9: the fixed parameters: 256-bit limbs, two or four operand limbs, and one modulus, 2^512, for both widths. -/
def Obligations.FixedParameters : Prop :=
  limbBits = 256 ∧ limbBase = 2 ^ limbBits ∧ modinvModulus = 2 ^ 512 ∧ limbCount .w512 = 2 ∧ limbCount .w1024 = 4

/-- R100: the reconstruction of n limbs is their positional sum, and is below `(2^256)^n`. -/
def Obligations.ReconstructIsPositionalSum : Prop :=
  ∀ limbs : List Word,
    reconstruct limbs = ∑ i ∈ Finset.range limbs.length, (limbs.getD i 0).toNat * (2 ^ 256) ^ i ∧
      reconstruct limbs < (2 ^ 256) ^ limbs.length

/-- R101, R111: for a value that fits, the decomposition has k limbs and limb i is `(v div 2^(256·i)) mod 2^256`; for one
that does not fit it is the error HEADROOM, never a truncated value. -/
def Obligations.DecomposeLimbsOrHeadroom : Prop :=
  ∀ v k : Nat, 1 ≤ k →
    (v < (2 ^ 256) ^ k → ∃ limbs, decompose v k = .ok limbs ∧ limbs.length = k ∧
      ∀ i, i < k → (limbs.getD i 0).toNat = v / (2 ^ 256) ^ i % 2 ^ 256) ∧
    ((2 ^ 256) ^ k ≤ v → decompose v k = .error .headroom)

/-- R102: reconstruction undoes decomposition, and decomposition undoes reconstruction. -/
def Obligations.CodecRoundTrip : Prop :=
  (∀ v k : Nat, 1 ≤ k → v < (2 ^ 256) ^ k → ∃ limbs, decompose v k = .ok limbs ∧ reconstruct limbs = v) ∧
    ∀ limbs : List Word, decompose (reconstruct limbs) limbs.length = .ok limbs

/-- R110: the result limb counts. -/
def Obligations.ResultLimbCounts : Prop :=
  ∀ op : Op, (op = .mul → rlc op .w512 = 4 ∧ rlc op .w1024 = 8) ∧ (op ≠ .mul → rlc op .w512 = 3 ∧ rlc op .w1024 = 5)

/-- R112: for every operation and every pair of operands of its width the value fits its limb count, so no command ends
in HEADROOM. -/
def Obligations.HeadroomAlwaysSufficient : Prop :=
  (∀ (op : Op) (w : Width) (a b v : Nat), a < (2 ^ 256) ^ limbCount w → b < (2 ^ 256) ^ limbCount w →
    opFn op w a b = .ok v → v < (2 ^ 256) ^ rlc op w) ∧
  ∀ (op : Op) (w : Width) (s : State), computeResult op w s ≠ .error .headroom

/-! ### Arithmetic primitives (00_scope.md) -/

/-- R14: quotient and remainder, the integer square root, the bit length and the inverse modulo 2^512 are the unique
numbers with their defining properties. -/
def Obligations.PrimitivesMeetTheirDefinitions : Prop :=
  (∀ a b q : Nat, 0 < b → (q = a / b ↔ q * b ≤ a ∧ a < (q + 1) * b) ∧ a % b = a - a / b * b ∧ a % b < b) ∧
  (∀ a r : Nat, r = isqrt a ↔ r * r ≤ a ∧ a < (r + 1) * (r + 1)) ∧
  (∀ a k : Nat, 0 < a → (k = bitlen a ↔ 1 ≤ k ∧ 2 ^ (k - 1) ≤ a ∧ a < 2 ^ k)) ∧
  ∀ b r : Nat, b % 2 = 1 → (r = invMod b ↔ r < modinvModulus ∧ b * r % modinvModulus = 1)

/-! ### The operations (41_arith.md, 42_compare.md, 43_special.md)

Each statement says, for both widths: the command words (R85); in every state whose configuration supports the command,
that it completes with the rule's value in the rule's number of limbs, zeros above them, the success status, and nothing
else changed; and that an unsupported command completes with INVALID_OP. -/

/-- R130: add is exact, with the carry out in limb R[N]. -/
def Obligations.AddResult : Prop :=
  decodeCommand 0x00#256 = .ok .add512 ∧ decodeCommand 0x10#256 = .ok .add1024 ∧
  ∀ s : State,
    (supported s.support .add .w512 = true →
      SucceedsWith .add512 s 3
      (operandA .w512 s + operandB .w512 s)
      (fun t =>
        (t.r[2] = 1 ↔ limbBase ^ 2 ≤ operandA .w512 s + operandB .w512 s) ∧
        (limbBase ^ 2 ≤ operandA .w512 s + operandB .w512 s →
          resultValue t 2 = operandA .w512 s + operandB .w512 s - limbBase ^ 2))) ∧
    (supported s.support .add .w512 = false → FailsWith .add512 s 1) ∧
    (supported s.support .add .w1024 = true →
      SucceedsWith .add1024 s 5
      (operandA .w1024 s + operandB .w1024 s)
      (fun t =>
        (t.r[4] = 1 ↔ limbBase ^ 4 ≤ operandA .w1024 s + operandB .w1024 s) ∧
        (limbBase ^ 4 ≤ operandA .w1024 s + operandB .w1024 s →
          resultValue t 4 = operandA .w1024 s + operandB .w1024 s - limbBase ^ 4))) ∧
    (supported s.support .add .w1024 = false → FailsWith .add1024 s 1)

/-- R131: sub gives the difference, or the sentinel `(2^256)^N` on underflow, and R[N] = 1 exactly on underflow. -/
def Obligations.SubResult : Prop :=
  decodeCommand 0x01#256 = .ok .sub512 ∧ decodeCommand 0x11#256 = .ok .sub1024 ∧
  ∀ s : State,
    (supported s.support .sub .w512 = true →
      SucceedsWith .sub512 s 3
      (if operandB .w512 s ≤ operandA .w512 s then operandA .w512 s - operandB .w512 s else limbBase ^ 2)
      (fun t =>
        (t.r[2] = 1 ↔ operandA .w512 s < operandB .w512 s) ∧
        (operandA .w512 s < operandB .w512 s → resultValue t 2 = 0))) ∧
    (supported s.support .sub .w512 = false → FailsWith .sub512 s 1) ∧
    (supported s.support .sub .w1024 = true →
      SucceedsWith .sub1024 s 5
      (if operandB .w1024 s ≤ operandA .w1024 s then operandA .w1024 s - operandB .w1024 s else limbBase ^ 4)
      (fun t =>
        (t.r[4] = 1 ↔ operandA .w1024 s < operandB .w1024 s) ∧
        (operandA .w1024 s < operandB .w1024 s → resultValue t 4 = 0))) ∧
    (supported s.support .sub .w1024 = false → FailsWith .sub1024 s 1)

/-- R132: mul is exact and full width, in 2N limbs. -/
def Obligations.MulResult : Prop :=
  decodeCommand 0x02#256 = .ok .mul512 ∧ decodeCommand 0x12#256 = .ok .mul1024 ∧
  ∀ s : State,
    (supported s.support .mul .w512 = true →
      Succeeds .mul512 s 4 (operandA .w512 s * operandB .w512 s)) ∧
    (supported s.support .mul .w512 = false → FailsWith .mul512 s 1) ∧
    (supported s.support .mul .w1024 = true →
      Succeeds .mul1024 s 8 (operandA .w1024 s * operandB .w1024 s)) ∧
    (supported s.support .mul .w1024 = false → FailsWith .mul1024 s 1)

/-- R133: div is the floor quotient, with a zero divisor taken as 1; R[N] is always 0. -/
def Obligations.DivResult : Prop :=
  decodeCommand 0x03#256 = .ok .div512 ∧ decodeCommand 0x13#256 = .ok .div1024 ∧
  ∀ s : State,
    (supported s.support .div .w512 = true →
      SucceedsWith .div512 s 3
      (operandA .w512 s / if operandB .w512 s = 0 then 1 else operandB .w512 s)
      (fun t => t.r[2] = 0)) ∧
    (supported s.support .div .w512 = false → FailsWith .div512 s 1) ∧
    (supported s.support .div .w1024 = true →
      SucceedsWith .div1024 s 5
      (operandA .w1024 s / if operandB .w1024 s = 0 then 1 else operandB .w1024 s)
      (fun t => t.r[4] = 0)) ∧
    (supported s.support .div .w1024 = false → FailsWith .div1024 s 1)

/-- R134: mod is the remainder, with a zero modulus taken as 1; R[N] is always 0. -/
def Obligations.ModResult : Prop :=
  decodeCommand 0x04#256 = .ok .mod512 ∧ decodeCommand 0x14#256 = .ok .mod1024 ∧
  ∀ s : State,
    (supported s.support .mod .w512 = true →
      SucceedsWith .mod512 s 3
      (operandA .w512 s % if operandB .w512 s = 0 then 1 else operandB .w512 s)
      (fun t => t.r[2] = 0)) ∧
    (supported s.support .mod .w512 = false → FailsWith .mod512 s 1) ∧
    (supported s.support .mod .w1024 = true →
      SucceedsWith .mod1024 s 5
      (operandA .w1024 s % if operandB .w1024 s = 0 then 1 else operandB .w1024 s)
      (fun t => t.r[4] = 0)) ∧
    (supported s.support .mod .w1024 = false → FailsWith .mod1024 s 1)

/-- R150: lt answers 1 if a < b and 0 otherwise, as a value. -/
def Obligations.LtResult : Prop :=
  decodeCommand 0x05#256 = .ok .lt512 ∧ decodeCommand 0x15#256 = .ok .lt1024 ∧
  ∀ s : State,
    (supported s.support .lt .w512 = true →
      Succeeds .lt512 s 3 (if operandA .w512 s < operandB .w512 s then 1 else 0)) ∧
    (supported s.support .lt .w512 = false → FailsWith .lt512 s 1) ∧
    (supported s.support .lt .w1024 = true →
      Succeeds .lt1024 s 5 (if operandA .w1024 s < operandB .w1024 s then 1 else 0)) ∧
    (supported s.support .lt .w1024 = false → FailsWith .lt1024 s 1)

/-- R151: gt answers 1 if a > b and 0 otherwise, as a value. -/
def Obligations.GtResult : Prop :=
  decodeCommand 0x06#256 = .ok .gt512 ∧ decodeCommand 0x16#256 = .ok .gt1024 ∧
  ∀ s : State,
    (supported s.support .gt .w512 = true →
      Succeeds .gt512 s 3 (if operandB .w512 s < operandA .w512 s then 1 else 0)) ∧
    (supported s.support .gt .w512 = false → FailsWith .gt512 s 1) ∧
    (supported s.support .gt .w1024 = true →
      Succeeds .gt1024 s 5 (if operandB .w1024 s < operandA .w1024 s then 1 else 0)) ∧
    (supported s.support .gt .w1024 = false → FailsWith .gt1024 s 1)

/-- R152: eq answers 1 if a = b and 0 otherwise, as a value. -/
def Obligations.EqResult : Prop :=
  decodeCommand 0x07#256 = .ok .eq512 ∧ decodeCommand 0x17#256 = .ok .eq1024 ∧
  ∀ s : State,
    (supported s.support .eq .w512 = true →
      Succeeds .eq512 s 3 (if operandA .w512 s = operandB .w512 s then 1 else 0)) ∧
    (supported s.support .eq .w512 = false → FailsWith .eq512 s 1) ∧
    (supported s.support .eq .w1024 = true →
      Succeeds .eq1024 s 5 (if operandA .w1024 s = operandB .w1024 s then 1 else 0)) ∧
    (supported s.support .eq .w1024 = false → FailsWith .eq1024 s 1)

/-- R153: ge answers 1 if a ≥ b and 0 otherwise, as a value. -/
def Obligations.GeResult : Prop :=
  decodeCommand 0x08#256 = .ok .ge512 ∧ decodeCommand 0x18#256 = .ok .ge1024 ∧
  ∀ s : State,
    (supported s.support .ge .w512 = true →
      Succeeds .ge512 s 3 (if operandB .w512 s ≤ operandA .w512 s then 1 else 0)) ∧
    (supported s.support .ge .w512 = false → FailsWith .ge512 s 1) ∧
    (supported s.support .ge .w1024 = true →
      Succeeds .ge1024 s 5 (if operandB .w1024 s ≤ operandA .w1024 s then 1 else 0)) ∧
    (supported s.support .ge .w1024 = false → FailsWith .ge1024 s 1)

/-- R160: sqrt is the exact integer square root of a, rounded down; the upper half of the operand's limbs and R[N] are 0. -/
def Obligations.SqrtResult : Prop :=
  decodeCommand 0x09#256 = .ok .sqrt512 ∧ decodeCommand 0x19#256 = .ok .sqrt1024 ∧
  ∀ s : State,
    (supported s.support .sqrt .w512 = true →
      ∃ r, SucceedsWith .sqrt512 s 3 r (fun t => ZeroFrom t 1) ∧ r * r ≤ operandA .w512 s ∧
        operandA .w512 s < (r + 1) * (r + 1)) ∧
    (supported s.support .sqrt .w512 = false → FailsWith .sqrt512 s 1) ∧
    (supported s.support .sqrt .w1024 = true →
      ∃ r, SucceedsWith .sqrt1024 s 5 r (fun t => ZeroFrom t 2) ∧ r * r ≤ operandA .w1024 s ∧
        operandA .w1024 s < (r + 1) * (r + 1)) ∧
    (supported s.support .sqrt .w1024 = false → FailsWith .sqrt1024 s 1)

/-- R161: log2 is the exact logarithm of a > 0, rounded down, in R[0] alone; it is DOMAIN at 0. -/
def Obligations.Log2Result : Prop :=
  decodeCommand 0x0A#256 = .ok .log2512 ∧ decodeCommand 0x1A#256 = .ok .log21024 ∧
  ∀ s : State,
    (supported s.support .log2 .w512 = true → operandA .w512 s ≠ 0 →
      ∃ r, SucceedsWith .log2512 s 3 r (fun t => ZeroFrom t 1) ∧ 2 ^ r ≤ operandA .w512 s ∧
        operandA .w512 s < 2 ^ (r + 1)) ∧
    (supported s.support .log2 .w512 = true → operandA .w512 s = 0 → FailsWith .log2512 s 2) ∧
    (supported s.support .log2 .w512 = false → FailsWith .log2512 s 1) ∧
    (supported s.support .log2 .w1024 = true → operandA .w1024 s ≠ 0 →
      ∃ r, SucceedsWith .log21024 s 5 r (fun t => ZeroFrom t 1) ∧ 2 ^ r ≤ operandA .w1024 s ∧
        operandA .w1024 s < 2 ^ (r + 1)) ∧
    (supported s.support .log2 .w1024 = true → operandA .w1024 s = 0 → FailsWith .log21024 s 2) ∧
    (supported s.support .log2 .w1024 = false → FailsWith .log21024 s 1)

/-- R162: modinv is the inverse of an odd b modulo 2^512 at both widths, and the only one below 2^512; it is DOMAIN for an
even b, 0 among them, and whether b is odd is bit 0 of LB[0]. -/
def Obligations.ModinvResult : Prop :=
  decodeCommand 0x0B#256 = .ok .modinv512 ∧ decodeCommand 0x1B#256 = .ok .modinv1024 ∧
  ∀ s : State,
    (supported s.support .modinv .w512 = true → s.lb[0].getLsbD 0 = true →
      ∃ r, SucceedsWith .modinv512 s 3 r (fun t => ZeroFrom t 2) ∧ r < modinvModulus ∧
        operandB .w512 s * r % modinvModulus = 1 ∧
        ∀ q, q < modinvModulus → operandB .w512 s * q % modinvModulus = 1 → q = r) ∧
    (supported s.support .modinv .w512 = true → s.lb[0].getLsbD 0 = false → FailsWith .modinv512 s 2) ∧
    (supported s.support .modinv .w512 = false → FailsWith .modinv512 s 1) ∧
    (supported s.support .modinv .w1024 = true → s.lb[0].getLsbD 0 = true →
      ∃ r, SucceedsWith .modinv1024 s 5 r (fun t => ZeroFrom t 2) ∧ r < modinvModulus ∧
        operandB .w1024 s * r % modinvModulus = 1 ∧
        ∀ q, q < modinvModulus → operandB .w1024 s * q % modinvModulus = 1 → q = r) ∧
    (supported s.support .modinv .w1024 = true → s.lb[0].getLsbD 0 = false → FailsWith .modinv1024 s 2) ∧
    (supported s.support .modinv .w1024 = false → FailsWith .modinv1024 s 1)

/-- R136, on the commands: add and mul give the same result and STATUS with the operands exchanged, and div and mod give
with a zero right operand what they give with 1. -/
def Obligations.CommutativityAndZeroDivisor : Prop :=
  ∀ (w : Width) (s : State),
    (∀ op, op = .add ∨ op = .mul → ∃ t u, exec (commandInstr op w) s = .next t ∧
      exec (commandInstr op w) { s with la := s.lb, lb := s.la } = .next u ∧ t.r = u.r ∧ t.status = u.status) ∧
    ∀ op, op = .div ∨ op = .mod → ∃ t u,
      exec (commandInstr op w) { s with lb := #v[0, 0, 0, 0] } = .next t ∧
      exec (commandInstr op w) { s with lb := #v[1, 0, 0, 0] } = .next u ∧ t.r = u.r ∧ t.status = u.status

/-- R137, on the commands: the results of div and mod on the same operands satisfy `a = q · d + m` and `m < d`, with d the
right operand or, if that is 0, 1. -/
def Obligations.DivisionIdentity : Prop :=
  ∀ (w : Width) (s : State), supported s.support .div w = true → supported s.support .mod w = true →
    ∃ t u, exec (commandInstr .div w) s = .next t ∧ exec (commandInstr .mod w) s = .next u ∧
      operandA w s = resultValue t 8 * (if operandB w s = 0 then 1 else operandB w s) + resultValue u 8 ∧
      resultValue u 8 < if operandB w s = 0 then 1 else operandB w s

/-- R154, on the commands: exactly one of lt, eq and gt answers 1, and ge answers 1 exactly if gt or eq does. -/
def Obligations.ComparisonConsistency : Prop :=
  ∀ (w : Width) (s : State),
    (∀ op, op = .lt ∨ op = .eq ∨ op = .gt ∨ op = .ge → supported s.support op w = true) →
    ∃ tl te tg tge, exec (commandInstr .lt w) s = .next tl ∧ exec (commandInstr .eq w) s = .next te ∧
      exec (commandInstr .gt w) s = .next tg ∧ exec (commandInstr .ge w) s = .next tge ∧
      resultValue tl 8 + resultValue te 8 + resultValue tg 8 = 1 ∧
      (resultValue tge 8 = 1 ↔ resultValue tg 8 = 1 ∨ resultValue te 8 = 1)

/-! ### The command lifecycle (40_codec.md, 60_exceptions.md) -/

/-- R58, R109, R186: the frame of all twenty-four commands. Each completes in every state, leaves the block idle with
DONE set, and changes nothing but R and STATUS, and of STATUS not OVR. -/
def Obligations.CommandsChangeOnlyResultAndStatus : Prop :=
  ∀ (op : Op) (w : Width) (s : State),
    ∃ t, exec (commandInstr op w) s = .next t ∧ KeepsAllButResult s t ∧ t.status.ovr = s.status.ovr ∧
      t.status.busy = false ∧ t.status.done = true

/-- R109: a successful completion with k limbs leaves them in R[0] to R[k−1], 0 above, the success status, and everything
else as it was. -/
def Obligations.SuccessCompletionWritesWholeResult : Prop :=
  ∀ (s : State) (limbs : List Word) (k : Nat), limbs.length = k → k ≤ 8 →
    (∀ j : Fin 8, (s.successComplete limbs k).r[j] = if j.val < k then limbs.getD j 0 else 0) ∧
    (s.successComplete limbs k).status = successStatus s k ∧ KeepsAllButResult s (s.successComplete limbs k)

/-- R186, R180: an error completion clears all of R, records the code (1 INVALID_OP, 2 DOMAIN, 3 HEADROOM) with ERR and
DONE set, BUSY and RLC cleared, and changes nothing else. -/
def Obligations.ErrorCompletionClearsResult : Prop :=
  ∀ (s : State) (c : ErrorCode),
    s.errorComplete c =
      { s with
        r := #v[0, 0, 0, 0, 0, 0, 0, 0],
        status := failureStatus s (match c with | .invalidOp => 1 | .domain => 2 | .headroom => 3) }

/-- R182: a supported command ends in DOMAIN in exactly two cases: modinv with b even, and log2 with a = 0. -/
def Obligations.DomainErrorExactlyTwoCases : Prop :=
  ∀ (op : Op) (w : Width) (s : State), supported s.support op w = true →
    ∃ t, exec (commandInstr op w) s = .next t ∧
      (t.status.ecode = 2 ↔ (op = .modinv ∧ operandB w s % 2 = 0) ∨ (op = .log2 ∧ operandA w s = 0))

/-- R113: what a completion writes depends only on LCMD, on the first N limbs of LA and LB, and on SUPPORTED: two states
that agree in those complete with the same R and the same STATUS but for OVR. -/
def Obligations.OutcomeDependsOnlyOnLatches : Prop :=
  ∀ (s u : State) (rest rest' : List Input),
    s.status.busy = true → u.status.busy = true → s.inputs = .engine :: rest → u.inputs = .engine :: rest' →
    s.lcmd = u.lcmd → s.support = u.support →
    (∀ j : Fin 4, j.val < (if s.lcmd.toNat / 16 % 4 = 0 then 2 else 4) → s.la[j] = u.la[j] ∧ s.lb[j] = u.lb[j]) →
    ∃ t v, step s = .next t ∧ step u = .next v ∧ t.r = v.r ∧ AgreeButOvr t.status v.status

/-- R105: whatever host transactions come between acceptance and completion (writes to A, B and CMD among them),
the command in progress completes with the R and, but for OVR, the STATUS that it has with none between. -/
def Obligations.HostCannotDisturbCommand : Prop :=
  ∀ (s : State) (txns : List (Header × Word)) (rest : List Input), s.status.busy = true →
    s.inputs = txnInputs txns ++ .engine :: rest →
    ∃ t v, Host.Core.run core (txns.length + 1) s = .next t ∧ step { s with inputs := .engine :: rest } = .next v ∧
      t.r = v.r ∧ AgreeButOvr t.status v.status ∧ t.cmd = v.cmd ∧ t.inputs = rest

/-- R106, R212: every accepted command completes. From any state with a command in progress, if no reset is to come, the
engine completes that command, with the latches unchanged until then, within one step more than there are inputs (the
bound is the model's, notes/assumptions/2.md: with no input left the engine has the turn). -/
def Obligations.EveryAcceptedCommandCompletes : Prop :=
  ∀ s : State, s.status.busy = true → Input.reset ∉ s.inputs →
    ∃ k u t, k ≤ s.inputs.length ∧ Host.Core.run core k s = .next u ∧ u.status.busy = true ∧ u.lcmd = s.lcmd ∧
      u.la = s.la ∧ u.lb = s.lb ∧ EngineNext u ∧ step u = .next t ∧ t.status.busy = false ∧ t.status.done = true

/-- R103, R104, R206: two commands with no wait between them. From an idle block, if the first completes before the second
write, the second is accepted; if not, it is refused: CMD and LCMD stay the first's, and OVR is set. -/
def Obligations.BackToBackCommands : Prop :=
  ∀ (s : State) (v w : Word), s.status.busy = false →
    (s.inputs = [.txn 0x28#6 v, .engine, .txn 0x28#6 w] →
      ∃ t, Host.Core.run core 3 s = .next t ∧ t.cmd = w ∧ t.lcmd = w ∧ t.status = Status.accepted) ∧
    (s.inputs = [.txn 0x28#6 v, .txn 0x28#6 w, .engine] →
      ∃ t, Host.Core.run core 3 s = .next t ∧ t.cmd = v ∧ t.lcmd = v ∧ t.status.busy = false ∧
        t.status.done = true ∧ t.status.ovr = true)

/-! ### Rules of the whole machine -/

/-- The invariant of the block's registers holds after reset. -/
def Obligations.ResetMeetsInvariant : Prop := RegistersInOrder State.reset

/-- R27, R28, R30, R31, R32, R33: every step keeps the invariant of the block's registers, from every state that meets
it. -/
def Obligations.StepKeepsInvariant : Prop := ∀ s t : State, RegistersInOrder s → step s = .next t → RegistersInOrder t

/-- R32: R is written only by a command's completion (or by reset): any other step leaves all eight limbs. -/
def Obligations.ResultWrittenOnlyByCompletion : Prop :=
  ∀ s t : State, step s = .next t → t.r ≠ s.r → ResetNext s ∨ (s.status.busy = true ∧ EngineNext s)

/-- R24, R33, R104: CMD, LCMD, LA and LB change only by reset or by a write to CMD while BUSY = 0, and then CMD and LCMD
take the written word. -/
def Obligations.CommandAndLatchesChangeOnlyByAcceptance : Prop :=
  ∀ s t : State, step s = .next t → ¬(t.cmd = s.cmd ∧ t.lcmd = s.lcmd ∧ t.la = s.la ∧ t.lb = s.lb) →
    ResetNext s ∨ ∃ v, WriteNext s 0x08#5 v ∧ s.status.busy = false ∧ t.cmd = v ∧ t.lcmd = v ∧ t.la = s.a ∧ t.lb = s.b

/-- R21, R22: the engine never writes A or B: a limb of A changes only by reset or by a host write at its address, 0x00 to
0x03, and a limb of B only by reset or by a host write at its address, 0x04 to 0x07. -/
def Obligations.OperandsWrittenOnlyByHost : Prop :=
  ∀ (s t : State) (i : Fin 4), step s = .next t →
    (t.a[i] ≠ s.a[i] → ResetNext s ∨ WriteNext s (BitVec.ofNat 5 i) t.a[i]) ∧
    (t.b[i] ≠ s.b[i] → ResetNext s ∨ WriteNext s (BitVec.ofNat 5 (4 + i)) t.b[i])

/-- R26, R199: BUSY rises only by a write to CMD, and falls only by the engine's completion step or by reset: nothing else
stops a command. -/
def Obligations.BusyFallsOnlyByCompletionOrReset : Prop :=
  ∀ s t : State, step s = .next t →
    (s.status.busy = false → t.status.busy = true → ∃ v, WriteNext s 0x08#5 v) ∧
    (s.status.busy = true → t.status.busy = false → ResetNext s ∨ EngineNext s)

/-- R29: OVR is set only by a write to CMD while BUSY = 1, and is cleared only by an accepted write to CMD or by reset. -/
def Obligations.OverrunBitIsSticky : Prop :=
  ∀ s t : State, step s = .next t →
    (s.status.ovr = false → t.status.ovr = true → s.status.busy = true ∧ ∃ v, WriteNext s 0x08#5 v) ∧
    (s.status.ovr = true → t.status.ovr = false →
      ResetNext s ∨ (s.status.busy = false ∧ ∃ v, WriteNext s 0x08#5 v))

/-- R10, R20: the configuration SUPPORTED is fixed for the life of the block: no step, reset among them, changes it. -/
def Obligations.ConfigurationIsFixed : Prop := ∀ s t : State, step s = .next t → t.support = s.support

/-- R66: instances share no state: a step of one is that block's own step, and leaves every other as it was. -/
def Obligations.InstancesAreIndependent : Prop :=
  ∀ (blocks after : List State) (i : Nat) (s : State), blocks[i]? = some s → stepInstance i blocks = .next after →
    (∃ t, step s = .next t ∧ after[i]? = some t) ∧ ∀ j, j ≠ i → after[j]? = blocks[j]?

/-! ### The host's notation (30_encoding.md) -/

/-- R91: the assembler's word for `<op>.<width>` is the CMD word `OP | (W << 4)` of R85. -/
def Obligations.MnemonicsAssembleToTheirWords : Prop :=
  ∀ (op : Op) (w : Width),
    assembleCommand (commandMnemonic op w) = some (BitVec.ofNat 256 (opNumber op + 16 * widthNumber w))

/-- R93: the writes `lda.<width> v` expands to leave v in the first N limbs of A, keep the limbs above them, and change
nothing else; `ldb.<width> v` does the same with B. -/
def Obligations.LoadPseudosLoadTheOperand : Prop :=
  ∀ (w : Width) (v : Nat) (s : State), v < (2 ^ 256) ^ limbCount w →
    (∃ t, performLines (expand (.lda w v)) s = .ok t ∧ reconstruct (t.a.toList.take (limbCount w)) = v ∧
      (∀ j : Fin 4, limbCount w ≤ j.val → t.a[j] = s.a[j]) ∧ t = { s with a := t.a }) ∧
    ∃ t, performLines (expand (.ldb w v)) s = .ok t ∧ reconstruct (t.b.toList.take (limbCount w)) = v ∧
      (∀ j : Fin 4, limbCount w ≤ j.val → t.b[j] = s.b[j]) ∧ t = { s with b := t.b }

/-- R93, R205, R212: the `wait` loop ends, wherever it stands in a host program whose lines before the loop do not define
the loop's label, and whatever turns come. If the lines after the loop define that label again, that the branch goes to
the loop's own definition, the first, is the model's choice (notes/assumptions/10.md). Within five steps more than there
are turns listed (the bound is the model's, notes/assumptions/16.md) the host is past the loop, the block is
idle, and the last word read from STATUS had BUSY = 0. If no reset comes meanwhile, the block is as the completion step
leaves it (as it was, if it was idle) but for the word last read, and that word was its STATUS. -/
def Obligations.WaitLoopEnds : Prop :=
  ∀ (c : System) (loop : Label) (before after : List HostLine),
    c.host.prog = before ++ expand (.wait loop) ++ after → .label loop ∉ before → c.host.pos = before.length →
    c.stopped = none →
    ∃ k d word, k ≤ c.turns.length + 5 ∧ systemRun k c = d ∧ d.host.prog = c.host.prog ∧
      d.host.pos = before.length + 3 ∧ d.stopped = none ∧ d.block.status.busy = false ∧
      lastRead d.host.reads 0x09#5 = some word ∧ word.getLsbD 0 = false ∧
      (Turn.reset ∉ c.turns →
        ∃ t, engineTurn c.block = .next t ∧ d.block = { t with readData := d.block.readData } ∧
          word = statusWord t.status)
end

