-- ==== Sys2Proof/Laws/Codec.lean ====
section
/-! SUPPORT. What the Limb Codec does: bounds of a reconstructed value, the limbs a decomposition leaves, and the
result file that holds them. -/

namespace Sys2Proof.Laws

open Sys2Proof.Machine

theorem limbBase_pos : 0 < limbBase := by decide

theorem limbBase_pow_pos (k : Nat) : 0 < limbBase ^ k := Nat.pow_pos limbBase_pos

theorem two_pow_256_eq_limbBase : 2 ^ 256 = limbBase := rfl

theorem word_lt_limbBase (w : Word) : w.toNat < limbBase := w.isLt

@[simp] theorem reconstruct_nil : reconstruct [] = 0 := rfl

@[simp] theorem reconstruct_cons (w : Word) (l : List Word) :
    reconstruct (w :: l) = w.toNat + limbBase * reconstruct l := rfl

theorem reconstruct_append (l m : List Word) :
    reconstruct (l ++ m) = reconstruct l + limbBase ^ l.length * reconstruct m := by
  induction l with
  | nil => simp
  | cons w l ih => simp [ih, Nat.pow_succ]; ring

/-- The value of n limbs is below `(2^256)^n` (R100). -/
theorem reconstruct_lt (l : List Word) : reconstruct l < limbBase ^ l.length := by
  induction l with
  | nil => simp
  | cons w l ih =>
    have hw := word_lt_limbBase w
    have h : limbBase * (reconstruct l + 1) ≤ limbBase * limbBase ^ l.length := Nat.mul_le_mul_left _ ih
    simp only [reconstruct_cons, List.length_cons, Nat.pow_succ]
    rw [Nat.mul_comm (limbBase ^ _)]
    calc w.toNat + limbBase * reconstruct l < limbBase * (reconstruct l + 1) := by rw [Nat.mul_succ]; omega
      _ ≤ _ := h

/-- Limb i of a sequence is digit i of its value. -/
theorem reconstruct_limb (l : List Word) (i : Nat) : (l.getD i 0).toNat = reconstruct l / limbBase ^ i % limbBase := by
  induction l generalizing i with
  | nil => simp
  | cons w l ih =>
    cases i with
    | zero => simp [Nat.add_mul_mod_self_left, Nat.mod_eq_of_lt (word_lt_limbBase w)]
    | succ i =>
      have hdiv : (w.toNat + limbBase * reconstruct l) / limbBase = reconstruct l := by
        rw [Nat.add_mul_div_left _ _ limbBase_pos, Nat.div_eq_of_lt (word_lt_limbBase w), Nat.zero_add]
      rw [Nat.pow_succ', ← Nat.div_div_eq_div_mul, reconstruct_cons, hdiv]
      simpa using ih i

/-- The value of the first k limbs is the value modulo `(2^256)^k`. -/
theorem reconstruct_take (l : List Word) (k : Nat) : reconstruct (l.take k) = reconstruct l % limbBase ^ k := by
  induction l generalizing k with
  | nil => simp
  | cons w l ih =>
    cases k with
    | zero => simp [Nat.mod_one]
    | succ k =>
      rw [List.take_succ_cons, reconstruct_cons, reconstruct_cons, ih, Nat.pow_succ', Nat.mod_mul,
        Nat.add_mul_mod_self_left, Nat.mod_eq_of_lt (word_lt_limbBase w), Nat.add_mul_div_left _ _ limbBase_pos,
        Nat.div_eq_of_lt (word_lt_limbBase w), Nat.zero_add]

/-- Two sequences of one length with one value are the same. -/
theorem reconstruct_inj {l m : List Word} (hlen : l.length = m.length) (h : reconstruct l = reconstruct m) : l = m := by
  apply List.ext_getElem hlen
  intro i h1 h2
  apply BitVec.eq_of_toNat_eq
  have hl := reconstruct_limb l i
  have hm := reconstruct_limb m i
  rw [List.getD_eq_getElem _ _ h1] at hl
  rw [List.getD_eq_getElem _ _ h2] at hm
  rw [hl, hm, h]

/-- Only zero limbs have the value 0. -/
theorem reconstruct_replicate_zero (n : Nat) : reconstruct (List.replicate n 0#256) = 0 := by
  induction n with
  | zero => rfl
  | succ n ih => simp [List.replicate_succ, ih]

@[simp] theorem decomposeDown_length (k v : Nat) : (decomposeDown k v).length = k := by
  induction k generalizing v with
  | zero => rfl
  | succ k ih => simp [decomposeDown, ih]

/-- The loop's limbs, put least significant first, have the value it was given, if that fits. -/
theorem reconstruct_decomposeDown {k v : Nat} (h : v < limbBase ^ k) :
    reconstruct (decomposeDown k v).reverse = v := by
  induction k generalizing v with
  | zero => simp at h; simp [decomposeDown, h]
  | succ k ih =>
    have hq : v / limbBase ^ k < limbBase := by
      rw [Nat.div_lt_iff_lt_mul (limbBase_pow_pos k)]
      simpa [Nat.pow_succ, Nat.mul_comm] using h
    have hr := ih (Nat.mod_lt v (limbBase_pow_pos k))
    simp only [decomposeDown, List.reverse_cons, reconstruct_append, hr, reconstruct_cons, reconstruct_nil,
      List.length_reverse, decomposeDown_length, Nat.mul_zero, Nat.add_zero, BitVec.toNat_ofNat,
      two_pow_256_eq_limbBase, Nat.mod_eq_of_lt hq]
    exact Nat.mod_add_div v (limbBase ^ k)

/-- Everything `decompose` can answer: the limbs of a value that fits, or HEADROOM. -/
theorem decompose_cases (v k : Nat) :
    (v < limbBase ^ k ∧ ∃ l, decompose v k = .ok l ∧ l.length = k ∧ reconstruct l = v) ∨
      (limbBase ^ k ≤ v ∧ decompose v k = .error .headroom) := by
  unfold decompose
  split
  · exact .inr ⟨‹_›, rfl⟩
  · exact .inl ⟨by omega, _, rfl, by simp, reconstruct_decomposeDown (by omega)⟩

/-- The result file's limbs are the list's, and 0 above its length. -/
theorem resultFile_get (l : List Word) (j : Fin 8) : (resultFile l)[j] = l.getD j 0 := by
  fin_cases j <;> rfl

/-- The first limbs of the result file are the whole of a list that fits in it. -/
theorem resultFile_take {l : List Word} (h : l.length ≤ 8) : (resultFile l).toList.take l.length = l := by
  apply List.ext_getElem
  · simp; omega
  · intro i h1 h2
    have hi : i < 8 := by omega
    have := resultFile_get l ⟨i, hi⟩
    simp only [Fin.getElem_fin] at this
    simp [this, h2]

/-- Above its length the result file is 0. -/
theorem resultFile_above {l : List Word} {j : Fin 8} (h : l.length ≤ j.val) : (resultFile l)[j] = 0 := by
  rw [resultFile_get]
  simp [h]

end Sys2Proof.Laws
end

