-- ==== Sys2Proof/Laws/State.lean ====
section
/-! SUPPORT. One lemma per field of State and per named update, and per field of STATUS and update of it: what the
update leaves in the field. Later proofs cite these and unfold no record update. -/

namespace Sys2Proof.Laws

open Sys2Proof.Machine

@[simp] theorem setReadData_a (s : State) (v : Word) : (s.setReadData v).a = s.a := rfl
@[simp] theorem setReadData_b (s : State) (v : Word) : (s.setReadData v).b = s.b := rfl
@[simp] theorem setReadData_cmd (s : State) (v : Word) : (s.setReadData v).cmd = s.cmd := rfl
@[simp] theorem setReadData_status (s : State) (v : Word) : (s.setReadData v).status = s.status := rfl
@[simp] theorem setReadData_r (s : State) (v : Word) : (s.setReadData v).r = s.r := rfl
@[simp] theorem setReadData_la (s : State) (v : Word) : (s.setReadData v).la = s.la := rfl
@[simp] theorem setReadData_lb (s : State) (v : Word) : (s.setReadData v).lb = s.lb := rfl
@[simp] theorem setReadData_lcmd (s : State) (v : Word) : (s.setReadData v).lcmd = s.lcmd := rfl
@[simp] theorem setReadData_support (s : State) (v : Word) : (s.setReadData v).support = s.support := rfl
@[simp] theorem setReadData_inputs (s : State) (v : Word) : (s.setReadData v).inputs = s.inputs := rfl
@[simp] theorem setReadData_readData (s : State) (v : Word) : (s.setReadData v).readData = v := rfl

@[simp] theorem setInputs_a (s : State) (l : List Input) : (s.setInputs l).a = s.a := rfl
@[simp] theorem setInputs_b (s : State) (l : List Input) : (s.setInputs l).b = s.b := rfl
@[simp] theorem setInputs_cmd (s : State) (l : List Input) : (s.setInputs l).cmd = s.cmd := rfl
@[simp] theorem setInputs_status (s : State) (l : List Input) : (s.setInputs l).status = s.status := rfl
@[simp] theorem setInputs_r (s : State) (l : List Input) : (s.setInputs l).r = s.r := rfl
@[simp] theorem setInputs_la (s : State) (l : List Input) : (s.setInputs l).la = s.la := rfl
@[simp] theorem setInputs_lb (s : State) (l : List Input) : (s.setInputs l).lb = s.lb := rfl
@[simp] theorem setInputs_lcmd (s : State) (l : List Input) : (s.setInputs l).lcmd = s.lcmd := rfl
@[simp] theorem setInputs_support (s : State) (l : List Input) : (s.setInputs l).support = s.support := rfl
@[simp] theorem setInputs_inputs (s : State) (l : List Input) : (s.setInputs l).inputs = l := rfl
@[simp] theorem setInputs_readData (s : State) (l : List Input) : (s.setInputs l).readData = s.readData := rfl

@[simp] theorem writeA_a (s : State) (i : Fin 4) (v : Word) : (s.writeA i v).a = s.a.set i v := rfl
@[simp] theorem writeA_b (s : State) (i : Fin 4) (v : Word) : (s.writeA i v).b = s.b := rfl
@[simp] theorem writeA_cmd (s : State) (i : Fin 4) (v : Word) : (s.writeA i v).cmd = s.cmd := rfl
@[simp] theorem writeA_status (s : State) (i : Fin 4) (v : Word) : (s.writeA i v).status = s.status := rfl
@[simp] theorem writeA_r (s : State) (i : Fin 4) (v : Word) : (s.writeA i v).r = s.r := rfl
@[simp] theorem writeA_la (s : State) (i : Fin 4) (v : Word) : (s.writeA i v).la = s.la := rfl
@[simp] theorem writeA_lb (s : State) (i : Fin 4) (v : Word) : (s.writeA i v).lb = s.lb := rfl
@[simp] theorem writeA_lcmd (s : State) (i : Fin 4) (v : Word) : (s.writeA i v).lcmd = s.lcmd := rfl
@[simp] theorem writeA_support (s : State) (i : Fin 4) (v : Word) : (s.writeA i v).support = s.support := rfl
@[simp] theorem writeA_inputs (s : State) (i : Fin 4) (v : Word) : (s.writeA i v).inputs = s.inputs := rfl
@[simp] theorem writeA_readData (s : State) (i : Fin 4) (v : Word) : (s.writeA i v).readData = s.readData := rfl

@[simp] theorem writeB_a (s : State) (i : Fin 4) (v : Word) : (s.writeB i v).a = s.a := rfl
@[simp] theorem writeB_b (s : State) (i : Fin 4) (v : Word) : (s.writeB i v).b = s.b.set i v := rfl
@[simp] theorem writeB_cmd (s : State) (i : Fin 4) (v : Word) : (s.writeB i v).cmd = s.cmd := rfl
@[simp] theorem writeB_status (s : State) (i : Fin 4) (v : Word) : (s.writeB i v).status = s.status := rfl
@[simp] theorem writeB_r (s : State) (i : Fin 4) (v : Word) : (s.writeB i v).r = s.r := rfl
@[simp] theorem writeB_la (s : State) (i : Fin 4) (v : Word) : (s.writeB i v).la = s.la := rfl
@[simp] theorem writeB_lb (s : State) (i : Fin 4) (v : Word) : (s.writeB i v).lb = s.lb := rfl
@[simp] theorem writeB_lcmd (s : State) (i : Fin 4) (v : Word) : (s.writeB i v).lcmd = s.lcmd := rfl
@[simp] theorem writeB_support (s : State) (i : Fin 4) (v : Word) : (s.writeB i v).support = s.support := rfl
@[simp] theorem writeB_inputs (s : State) (i : Fin 4) (v : Word) : (s.writeB i v).inputs = s.inputs := rfl
@[simp] theorem writeB_readData (s : State) (i : Fin 4) (v : Word) : (s.writeB i v).readData = s.readData := rfl

@[simp] theorem accept_a (s : State) (v : Word) : (s.accept v).a = s.a := rfl
@[simp] theorem accept_b (s : State) (v : Word) : (s.accept v).b = s.b := rfl
@[simp] theorem accept_cmd (s : State) (v : Word) : (s.accept v).cmd = v := rfl
@[simp] theorem accept_status (s : State) (v : Word) : (s.accept v).status = Status.accepted := rfl
@[simp] theorem accept_r (s : State) (v : Word) : (s.accept v).r = s.r := rfl
@[simp] theorem accept_la (s : State) (v : Word) : (s.accept v).la = s.a := rfl
@[simp] theorem accept_lb (s : State) (v : Word) : (s.accept v).lb = s.b := rfl
@[simp] theorem accept_lcmd (s : State) (v : Word) : (s.accept v).lcmd = v := rfl
@[simp] theorem accept_support (s : State) (v : Word) : (s.accept v).support = s.support := rfl
@[simp] theorem accept_inputs (s : State) (v : Word) : (s.accept v).inputs = s.inputs := rfl
@[simp] theorem accept_readData (s : State) (v : Word) : (s.accept v).readData = s.readData := rfl

@[simp] theorem overrun_a (s : State) : s.overrun.a = s.a := rfl
@[simp] theorem overrun_b (s : State) : s.overrun.b = s.b := rfl
@[simp] theorem overrun_cmd (s : State) : s.overrun.cmd = s.cmd := rfl
@[simp] theorem overrun_status (s : State) : s.overrun.status = s.status.overrun := rfl
@[simp] theorem overrun_r (s : State) : s.overrun.r = s.r := rfl
@[simp] theorem overrun_la (s : State) : s.overrun.la = s.la := rfl
@[simp] theorem overrun_lb (s : State) : s.overrun.lb = s.lb := rfl
@[simp] theorem overrun_lcmd (s : State) : s.overrun.lcmd = s.lcmd := rfl
@[simp] theorem overrun_support (s : State) : s.overrun.support = s.support := rfl
@[simp] theorem overrun_inputs (s : State) : s.overrun.inputs = s.inputs := rfl
@[simp] theorem overrun_readData (s : State) : s.overrun.readData = s.readData := rfl

@[simp] theorem finish_a (s : State) (r : Vector Word 8) (st : Status) : (s.finish r st).a = s.a := rfl
@[simp] theorem finish_b (s : State) (r : Vector Word 8) (st : Status) : (s.finish r st).b = s.b := rfl
@[simp] theorem finish_cmd (s : State) (r : Vector Word 8) (st : Status) : (s.finish r st).cmd = s.cmd := rfl
@[simp] theorem finish_status (s : State) (r : Vector Word 8) (st : Status) : (s.finish r st).status = st := rfl
@[simp] theorem finish_r (s : State) (r : Vector Word 8) (st : Status) : (s.finish r st).r = r := rfl
@[simp] theorem finish_la (s : State) (r : Vector Word 8) (st : Status) : (s.finish r st).la = s.la := rfl
@[simp] theorem finish_lb (s : State) (r : Vector Word 8) (st : Status) : (s.finish r st).lb = s.lb := rfl
@[simp] theorem finish_lcmd (s : State) (r : Vector Word 8) (st : Status) : (s.finish r st).lcmd = s.lcmd := rfl
@[simp] theorem finish_support (s : State) (r : Vector Word 8) (st : Status) : (s.finish r st).support = s.support := rfl
@[simp] theorem finish_inputs (s : State) (r : Vector Word 8) (st : Status) : (s.finish r st).inputs = s.inputs := rfl
@[simp] theorem finish_readData (s : State) (r : Vector Word 8) (st : Status) : (s.finish r st).readData = s.readData := rfl

@[simp] theorem assertReset_a (s : State) : s.assertReset.a = State.reset.a := rfl
@[simp] theorem assertReset_b (s : State) : s.assertReset.b = State.reset.b := rfl
@[simp] theorem assertReset_cmd (s : State) : s.assertReset.cmd = 0 := rfl
@[simp] theorem assertReset_status (s : State) : s.assertReset.status = Status.reset := rfl
@[simp] theorem assertReset_r (s : State) : s.assertReset.r = State.reset.r := rfl
@[simp] theorem assertReset_la (s : State) : s.assertReset.la = State.reset.la := rfl
@[simp] theorem assertReset_lb (s : State) : s.assertReset.lb = State.reset.lb := rfl
@[simp] theorem assertReset_lcmd (s : State) : s.assertReset.lcmd = 0 := rfl
@[simp] theorem assertReset_support (s : State) : s.assertReset.support = s.support := rfl
@[simp] theorem assertReset_inputs (s : State) : s.assertReset.inputs = s.inputs := rfl
@[simp] theorem assertReset_readData (s : State) : s.assertReset.readData = s.readData := rfl

@[simp] theorem status_overrun_busy (st : Status) : st.overrun.busy = st.busy := rfl
@[simp] theorem status_overrun_done (st : Status) : st.overrun.done = st.done := rfl
@[simp] theorem status_overrun_err (st : Status) : st.overrun.err = st.err := rfl
@[simp] theorem status_overrun_ovr (st : Status) : st.overrun.ovr = true := rfl
@[simp] theorem status_overrun_ecode (st : Status) : st.overrun.ecode = st.ecode := rfl
@[simp] theorem status_overrun_rlc (st : Status) : st.overrun.rlc = st.rlc := rfl

@[simp] theorem status_succeeded_busy (st : Status) (k : Nat) : (st.succeeded k).busy = false := rfl
@[simp] theorem status_succeeded_done (st : Status) (k : Nat) : (st.succeeded k).done = true := rfl
@[simp] theorem status_succeeded_err (st : Status) (k : Nat) : (st.succeeded k).err = false := rfl
@[simp] theorem status_succeeded_ovr (st : Status) (k : Nat) : (st.succeeded k).ovr = st.ovr := rfl
@[simp] theorem status_succeeded_ecode (st : Status) (k : Nat) : (st.succeeded k).ecode = 0 := rfl
@[simp] theorem status_succeeded_rlc (st : Status) (k : Nat) : (st.succeeded k).rlc = BitVec.ofNat 4 k := rfl

@[simp] theorem status_failed_busy (st : Status) (c : ErrorCode) : (st.failed c).busy = false := rfl
@[simp] theorem status_failed_done (st : Status) (c : ErrorCode) : (st.failed c).done = true := rfl
@[simp] theorem status_failed_err (st : Status) (c : ErrorCode) : (st.failed c).err = true := rfl
@[simp] theorem status_failed_ovr (st : Status) (c : ErrorCode) : (st.failed c).ovr = st.ovr := rfl
@[simp] theorem status_failed_ecode (st : Status) (c : ErrorCode) : (st.failed c).ecode = errorCode c := rfl
@[simp] theorem status_failed_rlc (st : Status) (c : ErrorCode) : (st.failed c).rlc = 0 := rfl

@[simp] theorem status_accepted_busy : Status.accepted.busy = true := rfl
@[simp] theorem status_accepted_done : Status.accepted.done = false := rfl
@[simp] theorem status_accepted_err : Status.accepted.err = false := rfl
@[simp] theorem status_accepted_ovr : Status.accepted.ovr = false := rfl
@[simp] theorem status_accepted_ecode : Status.accepted.ecode = 0 := rfl
@[simp] theorem status_accepted_rlc : Status.accepted.rlc = 0 := rfl

@[simp] theorem status_reset_busy : Status.reset.busy = false := rfl
@[simp] theorem status_reset_done : Status.reset.done = false := rfl
@[simp] theorem status_reset_err : Status.reset.err = false := rfl
@[simp] theorem status_reset_ovr : Status.reset.ovr = false := rfl
@[simp] theorem status_reset_ecode : Status.reset.ecode = 0 := rfl
@[simp] theorem status_reset_rlc : Status.reset.rlc = 0 := rfl

/-- Two states with equal fields are equal. -/
theorem state_ext {s t : State} (ha : s.a = t.a) (hb : s.b = t.b) (hc : s.cmd = t.cmd) (hs : s.status = t.status)
    (hr : s.r = t.r) (hla : s.la = t.la) (hlb : s.lb = t.lb) (hl : s.lcmd = t.lcmd) (hp : s.support = t.support)
    (hi : s.inputs = t.inputs) (hd : s.readData = t.readData) : s = t := by
  cases s; cases t; simp_all

end Sys2Proof.Laws
end

