-- ==== Sys2Proof/Laws/Ops.lean ====
section
/-! SUPPORT. What the shared operations and a step can do, each said once: the address map, a host write, a command's
completion, exec, and a step. -/

namespace Sys2Proof.Laws

open Sys2Proof.Machine

@[simp] theorem portReg_a (i : Fin 4) : portReg (BitVec.ofNat 5 i.val) = .a i := by revert i; decide

@[simp] theorem portReg_b (i : Fin 4) : portReg (BitVec.ofNat 5 (4 + i.val)) = .b i := by revert i; decide

@[simp] theorem portReg_cmd : portReg 8#5 = .cmd := by decide

@[simp] theorem portReg_status : portReg 9#5 = .status := by decide

@[simp] theorem portReg_r (i : Fin 8) : portReg (BitVec.ofNat 5 (16 + i.val)) = .r i := by revert i; decide

/-- The reserved addresses of R51 and no other. -/
theorem portReg_reserved (addr : Addr) :
    portReg addr = .reserved ↔ (0x0A ≤ addr.toNat ∧ addr.toNat ≤ 0x0F) ∨ 0x18 ≤ addr.toNat := by
  revert addr; decide

/-- Everything a host write can do (R53). -/
theorem hostWrite_cases (s : State) (addr : Addr) (v : Word) :
    (∃ i, portReg addr = .a i ∧ s.hostWrite addr v = s.writeA i v) ∨
    (∃ i, portReg addr = .b i ∧ s.hostWrite addr v = s.writeB i v) ∨
    (portReg addr = .cmd ∧ s.status.busy = true ∧ s.hostWrite addr v = s.overrun) ∨
    (portReg addr = .cmd ∧ s.status.busy = false ∧ s.hostWrite addr v = s.accept v) ∨
    ((portReg addr = .status ∨ (∃ i, portReg addr = .r i) ∨ portReg addr = .reserved) ∧ s.hostWrite addr v = s) := by
  unfold State.hostWrite
  cases h : portReg addr with
  | a i => exact .inl ⟨i, rfl, rfl⟩
  | b i => exact .inr (.inl ⟨i, rfl, rfl⟩)
  | cmd =>
    cases hb : s.status.busy with
    | true => exact .inr (.inr (.inl ⟨rfl, rfl, by simp [State.writeCmd, hb]⟩))
    | false => exact .inr (.inr (.inr (.inl ⟨rfl, rfl, by simp [State.writeCmd, hb]⟩)))
  | status => simp
  | r i => simp
  | reserved => simp

/-- The result limb counts there are (R31, R110). -/
theorem rlc_values (op : Op) (w : Width) : rlc op w = 3 ∨ rlc op w = 4 ∨ rlc op w = 5 ∨ rlc op w = 8 := by
  cases op <;> cases w <;> decide

/-- Everything the completion of a decoded command can do: the whole result, or one error with R cleared (R107). -/
theorem completeState_cases (op : Op) (w : Width) (s : State) :
    (supported s.support op w = true ∧ ∃ v l, opFn op w (operandA w s) (operandB w s) = .ok v ∧
        v < limbBase ^ rlc op w ∧ l.length = rlc op w ∧ reconstruct l = v ∧
        completeState op w s = s.successComplete l (rlc op w)) ∨
    (supported s.support op w = true ∧ ∃ v, opFn op w (operandA w s) (operandB w s) = .ok v ∧
        limbBase ^ rlc op w ≤ v ∧ completeState op w s = s.errorComplete .headroom) ∨
    (supported s.support op w = true ∧ ∃ c, opFn op w (operandA w s) (operandB w s) = .error c ∧
        completeState op w s = s.errorComplete c) ∨
    (supported s.support op w = false ∧ completeState op w s = s.errorComplete .invalidOp) := by
  unfold completeState computeResult
  cases hs : supported s.support op w with
  | false => simp
  | true =>
    cases hv : opFn op w (operandA w s) (operandB w s) with
    | error c => simp
    | ok v =>
      rcases decompose_cases v (rlc op w) with ⟨hlt, l, hd, hlen, hrec⟩ | ⟨hle, hd⟩
      · exact .inl ⟨rfl, v, l, rfl, hlt, hlen, hrec, by simp [hd]⟩
      · exact .inr (.inl ⟨rfl, v, rfl, hle, by simp [hd]⟩)

/-- A completion writes R and STATUS and nothing else (R58). -/
theorem completeState_finish (op : Op) (w : Width) (s : State) :
    ∃ r st, completeState op w s = s.finish r st := by
  unfold completeState
  split
  · exact ⟨_, _, rfl⟩
  · exact ⟨_, _, rfl⟩

/-- Each command's meaning is the completion step of its operator at its width. -/
theorem exec_command (op : Op) (w : Width) (s : State) :
    exec (commandInstr op w) s = .next (completeState op w s) := by
  cases op <;> cases w <;> rfl

/-- Every instruction is a command or a host transaction. -/
theorem instr_cases (i : Instr) :
    (∃ op w, i = commandInstr op w) ∨ (∃ addr, i = .hostRead addr) ∨ ∃ addr v, i = .hostWrite addr v := by
  cases i with
  | hostRead addr => exact .inr (.inl ⟨addr, rfl⟩)
  | hostWrite addr v => exact .inr (.inr ⟨addr, v, rfl⟩)
  | add512 => exact .inl ⟨.add, .w512, rfl⟩
  | sub512 => exact .inl ⟨.sub, .w512, rfl⟩
  | mul512 => exact .inl ⟨.mul, .w512, rfl⟩
  | div512 => exact .inl ⟨.div, .w512, rfl⟩
  | mod512 => exact .inl ⟨.mod, .w512, rfl⟩
  | lt512 => exact .inl ⟨.lt, .w512, rfl⟩
  | gt512 => exact .inl ⟨.gt, .w512, rfl⟩
  | eq512 => exact .inl ⟨.eq, .w512, rfl⟩
  | ge512 => exact .inl ⟨.ge, .w512, rfl⟩
  | sqrt512 => exact .inl ⟨.sqrt, .w512, rfl⟩
  | log2512 => exact .inl ⟨.log2, .w512, rfl⟩
  | modinv512 => exact .inl ⟨.modinv, .w512, rfl⟩
  | add1024 => exact .inl ⟨.add, .w1024, rfl⟩
  | sub1024 => exact .inl ⟨.sub, .w1024, rfl⟩
  | mul1024 => exact .inl ⟨.mul, .w1024, rfl⟩
  | div1024 => exact .inl ⟨.div, .w1024, rfl⟩
  | mod1024 => exact .inl ⟨.mod, .w1024, rfl⟩
  | lt1024 => exact .inl ⟨.lt, .w1024, rfl⟩
  | gt1024 => exact .inl ⟨.gt, .w1024, rfl⟩
  | eq1024 => exact .inl ⟨.eq, .w1024, rfl⟩
  | ge1024 => exact .inl ⟨.ge, .w1024, rfl⟩
  | sqrt1024 => exact .inl ⟨.sqrt, .w1024, rfl⟩
  | log21024 => exact .inl ⟨.log2, .w1024, rfl⟩
  | modinv1024 => exact .inl ⟨.modinv, .w1024, rfl⟩

/-- A command word that decodes at all decodes to a command (R86). -/
theorem decodeCommand_ok {word : Word} {i : Instr} (h : decodeCommand word = .ok i) :
    ∃ op w, i = commandInstr op w := by
  unfold decodeCommand at h
  split at h
  · cases h
  · split at h <;> cases h
    exact ⟨_, _, rfl⟩

/-- Everything the engine's turn can do (R106, R107). -/
theorem engineTurn_cases (s : State) :
    (s.status.busy = false ∧ engineTurn s = .next s) ∨
    (s.status.busy = true ∧ ∃ op w, decodeCommand s.lcmd = .ok (commandInstr op w) ∧
        engineTurn s = .next (completeState op w s)) ∨
    (s.status.busy = true ∧ (∃ e, decodeCommand s.lcmd = .error e) ∧
        engineTurn s = .next (s.errorComplete .invalidOp)) := by
  unfold engineTurn engineCommand
  cases hb : s.status.busy with
  | false => simp
  | true =>
    cases hd : decodeCommand s.lcmd with
    | error e => simp
    | ok i =>
      obtain ⟨op, w, rfl⟩ := decodeCommand_ok hd
      exact .inr (.inl ⟨rfl, op, w, rfl, exec_command op w s⟩)

/-- Everything one step can do: the engine's turn (with or without an input that says so), a host transaction, or
reset. -/
theorem step_cases (s : State) :
    (s.inputs = [] ∧ step s = engineTurn s) ∨
    (∃ rest, s.inputs = .engine :: rest ∧ step s = engineTurn (s.setInputs rest)) ∨
    (∃ header data rest, s.inputs = .txn header data :: rest ∧
      ((weBit header = false ∧ step s = .next ((s.setInputs rest).hostRead (addrField header))) ∨
       (weBit header = true ∧ step s = .next ((s.setInputs rest).hostWrite (addrField header) data)))) ∨
    (∃ rest, s.inputs = .reset :: rest ∧ step s = .next (s.setInputs rest).assertReset) := by
  unfold step
  split
  · exact .inl ⟨‹_›, rfl⟩
  · rename_i header data rest h
    refine .inr (.inr (.inl ⟨header, data, rest, h, ?_⟩))
    unfold decodeTxn
    cases weBit header
    · exact .inl ⟨rfl, rfl⟩
    · exact .inr ⟨rfl, rfl⟩
  · exact .inr (.inl ⟨_, ‹_›, rfl⟩)
  · exact .inr (.inr (.inr ⟨_, ‹_›, rfl⟩))

end Sys2Proof.Laws
end

