-- ==== Sys2Proof/Laws/HostSystem.lean ====
section
/-! SUPPORT. What one input, one line of a host program, and one turn of the host and the block together can do, each
said once; and that the engine's turn may come after any number of the host's lines (`70_reset_and_hazards.md` R212). -/

namespace Sys2Proof.Laws

open Sys2Proof.Machine

@[simp] theorem setTurns_host (c : System) (l : List Turn) : (c.setTurns l).host = c.host := rfl
@[simp] theorem setTurns_stopped (c : System) (l : List Turn) : (c.setTurns l).stopped = c.stopped := rfl
@[simp] theorem setTurns_block (c : System) (l : List Turn) : (c.setTurns l).block = c.block := rfl
@[simp] theorem setTurns_turns (c : System) (l : List Turn) : (c.setTurns l).turns = l := rfl

@[simp] theorem weBit_write (addr : Addr) : weBit (1#1 ++ addr) = true := by revert addr; decide

@[simp] theorem addrField_header (we : BitVec 1) (addr : Addr) : addrField (we ++ addr) = addr := by
  revert we addr; decide

@[simp] theorem weBit_read (addr : Addr) : weBit (0#1 ++ addr) = false := by revert addr; decide

@[simp] theorem decodeTxn_read (addr : Addr) (data : Word) : decodeTxn (0#1 ++ addr) data = .hostRead addr := by
  simp [decodeTxn]

@[simp] theorem decodeTxn_write (addr : Addr) (data : Word) :
    decodeTxn (1#1 ++ addr) data = .hostWrite addr data := by
  simp [decodeTxn]

/-- A host transaction the block takes now is a read or a write, by its WE bit (R87). -/
theorem present_txn (header : Header) (data : Word) (s : State) :
    present (.txn header data) s =
      .ok (if weBit header then s.hostWrite (addrField header) data else s.hostRead (addrField header)) := by
  have e : step (s.setInputs (.txn header data :: s.inputs)) = exec (decodeTxn header data) s := rfl
  unfold present
  rw [e]
  unfold decodeTxn
  cases weBit header <;> rfl

/-- The engine's turn, given now, is `engineTurn`. -/
theorem present_engine (s : State) : ∃ t, engineTurn s = .next t ∧ present .engine s = .ok t := by
  have e : step (s.setInputs (.engine :: s.inputs)) = engineTurn s := rfl
  unfold present
  rw [e]
  rcases engineTurn_cases s with ⟨-, h⟩ | ⟨-, _, _, -, h⟩ | ⟨-, -, h⟩ <;> exact ⟨_, h, by rw [h]⟩

theorem present_reset (s : State) : present .reset s = .ok s.assertReset := rfl

@[simp] theorem performTxn_read (addr : Addr) (data : Word) (s : State) :
    performTxn (0#1 ++ addr) data s = .ok (s.hostRead addr) := by
  simp [performTxn, present_txn]

@[simp] theorem performTxn_write (addr : Addr) (data : Word) (s : State) :
    performTxn (1#1 ++ addr) data s = .ok (s.hostWrite addr data) := by
  simp [performTxn, present_txn]

/-- Everything one line of a host program can do to the block: nothing, one read whose word the host keeps, or one
write (R92). The program stays as it is. -/
theorem hostStep_cases {h h' : HostCtl} {s s' : State} (e : hostStep h s = .ok (h', s')) :
    h'.prog = h.prog ∧
      ((s' = s ∧ h'.reads = h.reads) ∨
       (∃ addr, s' = s.hostRead addr ∧ h'.reads = (addr, portRead addr s) :: h.reads) ∨
       ∃ addr v, s' = s.hostWrite addr v ∧ h'.reads = h.reads) := by
  have jump : ∀ {target x}, h.jumpTo target = .ok x → x.prog = h.prog ∧ x.reads = h.reads := by
    intro target x hx
    unfold HostCtl.jumpTo at hx
    split at hx <;> cases hx
    exact ⟨rfl, rfl⟩
  unfold hostStep at e
  split at e
  · cases e
  · cases e
  · cases e; exact ⟨rfl, .inl ⟨rfl, rfl⟩⟩
  · split at e <;> cases e
    exact ⟨(jump ‹_›).1, .inl ⟨rfl, (jump ‹_›).2⟩⟩
  · split at e
    · cases e
    · split at e
      · cases e; exact ⟨rfl, .inl ⟨rfl, rfl⟩⟩
      · split at e <;> cases e
        exact ⟨(jump ‹_›).1, .inl ⟨rfl, (jump ‹_›).2⟩⟩
  · rw [performTxn_write] at e
    cases e; exact ⟨rfl, .inr (.inr ⟨_, _, rfl, rfl⟩)⟩
  · rw [performTxn_read] at e
    cases e; exact ⟨rfl, .inr (.inl ⟨_, rfl, rfl⟩)⟩

/-- Everything a host's turn can do to the block. -/
theorem hostTurn_cases (c : System) :
    c.hostTurn.turns = c.turns ∧
      (c.hostTurn.block = c.block ∨ (∃ addr, c.hostTurn.block = c.block.hostRead addr) ∨
       ∃ addr v, c.hostTurn.block = c.block.hostWrite addr v) := by
  unfold System.hostTurn
  split
  · exact ⟨rfl, .inl rfl⟩
  · split
    · obtain ⟨-, ⟨h, -⟩ | ⟨a, h, -⟩ | ⟨a, v, h, -⟩⟩ := hostStep_cases ‹_›
      · exact ⟨rfl, .inl h⟩
      · exact ⟨rfl, .inr (.inl ⟨a, h⟩)⟩
      · exact ⟨rfl, .inr (.inr ⟨a, v, h⟩)⟩
    · exact ⟨rfl, .inl rfl⟩

/-- The engine's turn is `engineTurn` on the block. -/
theorem engineTurn_of_system (c : System) :
    ∃ t, engineTurn c.block = .next t ∧ c.takeTurn .engine = { c with block := t } := by
  obtain ⟨t, h, e⟩ := present_engine c.block
  exact ⟨t, h, by simp [System.takeTurn, System.blockTurn, e]⟩

theorem resetTurn_of_system (c : System) : c.takeTurn .reset = { c with block := c.block.assertReset } := rfl

theorem takeTurn_turns (c : System) (turn : Turn) : (c.takeTurn turn).turns = c.turns := by
  cases turn with
  | host => exact (hostTurn_cases c).1
  | engine => obtain ⟨t, -, e⟩ := engineTurn_of_system c; rw [e]
  | reset => rfl

/-- A turn is a step of the block, given one input, or leaves the block as it was: the host and the block together do
nothing that the block alone does not. -/
theorem takeTurn_block (c : System) (turn : Turn) :
    (c.takeTurn turn).block = c.block ∨
      ∃ input, step (c.block.setInputs (input :: c.block.inputs)) = .next (c.takeTurn turn).block := by
  cases turn with
  | host =>
    obtain ⟨-, h | ⟨addr, h⟩ | ⟨addr, v, h⟩⟩ := hostTurn_cases c
    · exact .inl h
    · refine .inr ⟨.txn (0#1 ++ addr) 0, ?_⟩
      rw [show (c.takeTurn .host).block = _ from h]
      simp only [step, setInputs_inputs, decodeTxn_read]; rfl
    · refine .inr ⟨.txn (1#1 ++ addr) v, ?_⟩
      rw [show (c.takeTurn .host).block = _ from h]
      simp only [step, setInputs_inputs, decodeTxn_write]; rfl
  | engine =>
    obtain ⟨t, h, e⟩ := engineTurn_of_system c
    refine .inr ⟨.engine, ?_⟩
    rw [e]; exact h
  | reset => exact .inr ⟨.reset, rfl⟩

/-- A host's turn leaves a command in progress as it is: BUSY and the latches (R104, R105). -/
theorem hostTurn_keeps_command (c : System) (hb : c.block.status.busy = true) :
    c.hostTurn.block.status.busy = true ∧ c.hostTurn.block.lcmd = c.block.lcmd ∧
      c.hostTurn.block.la = c.block.la ∧ c.hostTurn.block.lb = c.block.lb := by
  obtain ⟨-, h | ⟨addr, h⟩ | ⟨addr, v, h⟩⟩ := hostTurn_cases c
  · rw [h]; exact ⟨hb, rfl, rfl, rfl⟩
  · rw [h]; exact ⟨hb, rfl, rfl, rfl⟩
  · rcases hostWrite_cases c.block addr v with ⟨i, -, e⟩ | ⟨i, -, e⟩ | ⟨-, -, e⟩ | ⟨-, hi, -⟩ | ⟨-, e⟩
    · rw [h, e]; exact ⟨hb, rfl, rfl, rfl⟩
    · rw [h, e]; exact ⟨hb, rfl, rfl, rfl⟩
    · rw [h, e]; exact ⟨hb, rfl, rfl, rfl⟩
    · rw [hi] at hb; cases hb
    · rw [h, e]; exact ⟨hb, rfl, rfl, rfl⟩

/-- The engine's turn completes a command in progress (R106). -/
theorem engineTurn_completes {s t : State} (hb : s.status.busy = true) (e : engineTurn s = .next t) :
    t.status.busy = false ∧ t.status.done = true := by
  rcases engineTurn_cases s with ⟨h, -⟩ | ⟨-, op, w, -, h⟩ | ⟨-, -, h⟩
  · rw [hb] at h; cases h
  · rw [h] at e; cases e
    rcases completeState_cases op w s with ⟨-, v, l, -, -, -, -, h⟩ | ⟨-, v, -, -, h⟩ | ⟨-, c, -, h⟩ | ⟨-, h⟩ <;>
      rw [h] <;> exact ⟨rfl, rfl⟩
  · rw [h] at e; cases e; exact ⟨rfl, rfl⟩

/-- The completion step may fall after any number of the host's turns, whatever the host's program is: through `n` of
them the command stays in progress with its latches unchanged, and the engine's turn that follows completes it (R212). -/
theorem completion_after_host_turns (n : Nat) (rest : List Turn) :
    ∀ c : System, c.block.status.busy = true → c.turns = List.replicate n .host ++ .engine :: rest →
      ∃ d, systemRun n c = d ∧ d.block.status.busy = true ∧ d.block.lcmd = c.block.lcmd ∧ d.block.la = c.block.la ∧
        d.block.lb = c.block.lb ∧ (systemStep d).block.status.busy = false ∧ (systemStep d).block.status.done = true := by
  induction n with
  | zero =>
    intro c hb ht
    have ht : c.turns = .engine :: rest := ht
    obtain ⟨t, h, e⟩ := engineTurn_of_system (c.setTurns rest)
    have hs : systemStep c = { c.setTurns rest with block := t } := by unfold systemStep; rw [ht]; exact e
    exact ⟨c, rfl, hb, rfl, rfl, rfl, by rw [hs]; exact engineTurn_completes hb h⟩
  | succ n ih =>
    intro c hb ht
    have hs : systemStep c = (c.setTurns (List.replicate n .host ++ .engine :: rest)).hostTurn := by
      unfold systemStep; rw [ht]; rfl
    obtain ⟨h1, h2, h3, h4⟩ := hostTurn_keeps_command (c.setTurns (List.replicate n .host ++ .engine :: rest)) hb
    rw [← hs] at h1 h2 h3 h4
    obtain ⟨d, hd, g1, g2, g3, g4, g5⟩ := ih (systemStep c) h1 (by rw [hs]; exact (hostTurn_cases _).1)
    exact ⟨d, hd, g1, g2.trans h2, g3.trans h3, g4.trans h4, g5⟩

end Sys2Proof.Laws
end

