-- ==== Sys2Proof/Laws/Numeric.lean ====
section
/-! SUPPORT. What the exact integer algorithms of Machine/Numeric.lean keep: one digit of the square root, one doubling
of the inverse's right bits. -/

namespace Sys2Proof.Laws

open Sys2Proof.Machine

/-- From the root of `a / 4` one digit gives the root of `a`. -/
theorem isqrtDigit_root {a r : Nat} (h1 : r * r ≤ a / 4) (h2 : a / 4 < (r + 1) * (r + 1)) :
    isqrtDigit a r * isqrtDigit a r ≤ a ∧ a < (isqrtDigit a r + 1) * (isqrtDigit a r + 1) := by
  have h4 : 4 * (r * r) ≤ a := by omega
  have h5 : a < 4 * ((r + 1) * (r + 1)) := by omega
  unfold isqrtDigit
  split
  · exact ⟨‹_›, by nlinarith⟩
  · exact ⟨by nlinarith, by omega⟩

/-- With fuel enough for its argument, the loop gives the root. -/
theorem isqrtFuel_root {fuel a : Nat} (h : a < 4 ^ fuel) :
    isqrtFuel fuel a * isqrtFuel fuel a ≤ a ∧ a < (isqrtFuel fuel a + 1) * (isqrtFuel fuel a + 1) := by
  induction fuel generalizing a with
  | zero => simp at h; simp [isqrtFuel, h]
  | succ fuel ih =>
    have := ih (a := a / 4) (by rw [Nat.pow_succ] at h; omega)
    exact isqrtDigit_root this.1 this.2

/-- The fuel `isqrt` takes is enough. -/
theorem lt_four_pow_isqrt_fuel (a : Nat) : a < 4 ^ (Nat.log2 a / 2 + 1) := by
  have h : a < 2 ^ (Nat.log2 a + 1) := Nat.lt_log2_self
  calc a < 2 ^ (Nat.log2 a + 1) := h
    _ ≤ 2 ^ (2 * (Nat.log2 a / 2 + 1)) := Nat.pow_le_pow_right (by decide) (by omega)
    _ = 4 ^ (Nat.log2 a / 2 + 1) := by rw [Nat.pow_mul]

/-- One Newton step doubles the number of right low bits. -/
theorem invDouble_doubles {m b x d : Nat} (hd : d * d ∣ m) (hm : 0 < m) (h : b * x ≡ 1 [MOD d]) :
    b * invDouble m b x ≡ 1 [MOD d * d] := by
  have hlt : b * x % m < m := Nat.mod_lt _ hm
  have key : ((b : ℤ) * (invDouble m b x : ℤ)) ≡ b * (x * (2 - b * x)) [ZMOD (d * d : ℕ)] := by
    have hmz : ((d * d : ℕ) : ℤ) ∣ (m : ℤ) := by exact_mod_cast hd
    have e1 : ((invDouble m b x : ℕ) : ℤ) ≡ x * (m + 2 - (b * x % m : ℕ)) [ZMOD (d * d : ℕ)] := by
      unfold invDouble
      push_cast [Nat.cast_sub (show b * x % m ≤ m + 2 by omega)]
      exact (Int.mod_modEq _ _).of_dvd hmz
    have e2 : ((m : ℤ) + 2 - (b * x % m : ℕ)) ≡ 2 - b * x [ZMOD (d * d : ℕ)] := by
      have hmod : ((b * x % m : ℕ) : ℤ) ≡ b * x [ZMOD (d * d : ℕ)] := by
        push_cast
        exact (Int.mod_modEq _ _).of_dvd hmz
      have hm0 : (m : ℤ) ≡ 0 [ZMOD (d * d : ℕ)] := (Int.modEq_zero_iff_dvd).2 hmz
      simpa using (hm0.add_right 2).sub hmod
    exact (e1.trans (e2.mul_left _)).mul_left _
  have hz : ((d : ℕ) : ℤ) ∣ 1 - b * x := by
    have := (Int.natCast_modEq_iff).2 h
    simpa using this.dvd
  have : ((b : ℤ) * (x * (2 - b * x))) ≡ 1 [ZMOD (d * d : ℕ)] := by
    apply Int.modEq_of_dvd
    have : (1 : ℤ) - b * (x * (2 - b * x)) = (1 - b * x) * (1 - b * x) := by ring
    rw [this]; push_cast
    exact mul_dvd_mul hz hz
  have fin := key.trans this
  exact (Int.natCast_modEq_iff).1 (by push_cast at fin ⊢; exact fin)

/-- The number of right low bits after `steps` Newton steps. -/
theorem invNewton_right {m b : Nat} (hb : b % 2 = 1) (hm : 0 < m) :
    ∀ steps : Nat, 2 ^ 2 ^ steps ∣ m → b * invNewton m b steps ≡ 1 [MOD 2 ^ 2 ^ steps]
  | 0, _ => by simpa [invNewton, Nat.ModEq] using hb
  | steps + 1, h => by
    have e : 2 ^ 2 ^ (steps + 1) = 2 ^ 2 ^ steps * 2 ^ 2 ^ steps := by rw [← Nat.pow_add, Nat.pow_succ]; ring_nf
    rw [e] at h ⊢
    exact invDouble_doubles h hm (invNewton_right hb hm steps (Dvd.dvd.trans (Nat.dvd_mul_right _ _) h))

/-- After at least one step the result is below the modulus. -/
theorem invNewton_lt {m : Nat} (b steps : Nat) (hm : 0 < m) : invNewton m b (steps + 1) < m := Nat.mod_lt _ hm

/-- An odd number has at most one inverse modulo `m` below `m`. -/
theorem inverse_unique {m b r q : Nat} (hr : r < m) (hq : q < m) (h1 : b * r % m = 1 % m) (h2 : b * q % m = 1 % m) :
    r = q := by
  have e : r ≡ q [MOD m] := by
    have h3 : r * (b * q) ≡ r * 1 [MOD m] := Nat.ModEq.mul_left r h2
    have h4 : q * (b * r) ≡ q * 1 [MOD m] := Nat.ModEq.mul_left q h1
    have : r * (b * q) = q * (b * r) := by ring
    rw [this] at h3
    simpa using h3.symm.trans h4
  exact Nat.ModEq.eq_of_lt_of_lt e hr hq

end Sys2Proof.Laws
end

