-- ==== Sys2Proof/WellFormed.lean ====
section
/-! DEFINITION. Well-formedness. Every term of Instr is well-formed: its fields' types carry the only bounds there are
(a 5-bit address, a 256-bit word; R80, R87). What can be ill-formed is a command word (`30_encoding.md` R83, R89), a
line of a host program (R92), a pseudo-instruction (R93), and a host program as a whole. -/

namespace Sys2Proof

/-- No bound on an instruction is left to check: the types of Instr's fields hold them all (R87: "every one of the 64
values is a legal transaction"; R84: a command has no operand field). -/
def Instr.wf (_ : Instr) : Bool := true

/-- A command word is legal: OP below 12, W below 2, RSV zero (R81, R82, R83, R89). -/
def legalCommandWord (w : Word) : Bool :=
  decide (w.toNat % 16 < 12) && decide (w.toNat / 16 % 4 < 2) && decide (w.toNat / 64 = 0)

/-- A packet is legal: a legal command word, or any host transaction (R87, R88). -/
def Packet.wf : Packet → Bool
  | .cmdw word => legalCommandWord word
  | .htxn _ _ => true

/-- `@0xNN` names one of the 32 word addresses (R50, R92). -/
def HostReg.wf : HostReg → Bool
  | .raw addr => decide (addr < 32)
  | .a _ => true
  | .b _ => true
  | .cmd => true
  | .status => true
  | .r _ => true

/-- `<value>` is a natural below 2^256, and the register is one of the port's (R92). R92 sets no bound on `<mask>`:
that a mask too is below 2^256, the width of the word it is ANDed with, is the model's DESIGN CHOICE
(notes/assumptions/10.md). -/
def HostLine.wf : HostLine → Bool
  | .wr reg value => reg.wf && decide (value < 2 ^ 256)
  | .rd reg => reg.wf
  | .label _ => true
  | .bnz reg mask _ => reg.wf && decide (mask < 2 ^ 256)
  | .jmp _ => true
  | .halt => true

/-- The bound of R93 on an operand to load: `v < 2^(256N)`. -/
def operandFits (width : Width) (v : Nat) : Bool :=
  match width with
  | .w512 => decide (v < limbBase ^ 2)
  | .w1024 => decide (v < limbBase ^ 4)

/-- An operand to load fits its width, the bound of R93. That a getr reads at most the eight limbs of R is the model's
DESIGN CHOICE: R93 states no bound on k (notes/assumptions/10.md). -/
def Pseudo.wf : Pseudo → Bool
  | .cmd _ _ => true
  | .lda width value => operandFits width value
  | .ldb width value => operandFits width value
  | .wait _ => true
  | .getr k => decide (k ≤ 8)
  | .op _ width left right _ => operandFits width left && operandFits width right

/-- The labels a program defines, in order. -/
def definedLabels : List HostLine → List Label
  | [] => []
  | .label name :: rest => name :: definedLabels rest
  | .wr _ _ :: rest => definedLabels rest
  | .rd _ :: rest => definedLabels rest
  | .bnz _ _ _ :: rest => definedLabels rest
  | .jmp _ :: rest => definedLabels rest
  | .halt :: rest => definedLabels rest

/-- A line branches, if it branches, to a label of the list. -/
def HostLine.targetsIn (labels : List Label) : HostLine → Bool
  | .bnz _ _ target => labels.contains target
  | .jmp target => labels.contains target
  | .wr _ _ => true
  | .rd _ => true
  | .label _ => true
  | .halt => true

/-- A host program is well-formed: every line is, each label is defined once, and every branch goes to a label of the
program. R92 says neither that a label is defined at most once nor that a branch's label is defined: both conditions
are the model's DESIGN CHOICE (notes/assumptions/10.md). -/
def programWf (prog : List HostLine) : Bool :=
  prog.all HostLine.wf && decide (definedLabels prog).Nodup &&
    prog.all (HostLine.targetsIn (definedLabels prog))

end Sys2Proof
end

