-- ==== Sys2Proof/Laws/PerInstr.lean ====
section
/-! SUPPORT. Statements for all instructions, made per instruction. EncodesLegal: the encoder never leaves the legal
packets. -/

namespace Sys2Proof.Laws.EncodesLegal

/-- The encoding of an instruction is a legal packet (R85, R87, R88). -/
def Statement (i : Instr) : Prop := (encode i).wf = true

theorem add512 : Statement .add512 := by unfold Statement; decide

theorem sub512 : Statement .sub512 := by unfold Statement; decide

theorem mul512 : Statement .mul512 := by unfold Statement; decide

theorem div512 : Statement .div512 := by unfold Statement; decide

theorem mod512 : Statement .mod512 := by unfold Statement; decide

theorem lt512 : Statement .lt512 := by unfold Statement; decide

theorem gt512 : Statement .gt512 := by unfold Statement; decide

theorem eq512 : Statement .eq512 := by unfold Statement; decide

theorem ge512 : Statement .ge512 := by unfold Statement; decide

theorem sqrt512 : Statement .sqrt512 := by unfold Statement; decide

theorem log2512 : Statement .log2512 := by unfold Statement; decide

theorem modinv512 : Statement .modinv512 := by unfold Statement; decide

theorem add1024 : Statement .add1024 := by unfold Statement; decide

theorem sub1024 : Statement .sub1024 := by unfold Statement; decide

theorem mul1024 : Statement .mul1024 := by unfold Statement; decide

theorem div1024 : Statement .div1024 := by unfold Statement; decide

theorem mod1024 : Statement .mod1024 := by unfold Statement; decide

theorem lt1024 : Statement .lt1024 := by unfold Statement; decide

theorem gt1024 : Statement .gt1024 := by unfold Statement; decide

theorem eq1024 : Statement .eq1024 := by unfold Statement; decide

theorem ge1024 : Statement .ge1024 := by unfold Statement; decide

theorem sqrt1024 : Statement .sqrt1024 := by unfold Statement; decide

theorem log21024 : Statement .log21024 := by unfold Statement; decide

theorem modinv1024 : Statement .modinv1024 := by unfold Statement; decide

theorem hostRead (addr : Addr) : Statement (.hostRead addr) := rfl

theorem hostWrite (addr : Addr) (data : Word) : Statement (.hostWrite addr data) := rfl

end Sys2Proof.Laws.EncodesLegal
end

