-- ==== Sys2Proof/Tests/Slice0.lean ====
section
/-! SUPPORT. The model's own tests: the well-formedness checks refuse ill-formed terms, words written out from the
spec's encodings decode to their instructions, each instruction gives a vector of 95_test_vectors.md, and every
statement with hypotheses has a witness. Expected values are the spec's. -/

namespace Sys2Proof.Tests

open Sys2Proof.Machine

/-- 2^256 − 1, the `M` of R11. -/
def m : Word := 0xffffffffffffffffffffffffffffffffffffffffffffffffffffffffffffffff

/-- A state as it is while a command runs on the given latched operands. -/
def running (la lb : Vector Word 4) : State :=
  { State.reset with la := la, lb := lb, status := Status.accepted }

/-- The state an outcome leaves; the reset state if it leaves none. -/
def after (o : Host.Outcome State Fault Refusal) : State :=
  match o with
  | .next t => t
  | .fault _ => State.reset
  | .refused _ => State.reset

/-- R and the STATUS word that an instruction leaves on the given operands. -/
def outcome (i : Instr) (la lb : Vector Word 4) : Vector Word 8 × Word :=
  let t := after (exec i (running la lb))
  (t.r, statusWord t.status)

/-! ### Well-formedness -/

theorem test_wf_refuses_reserved_op : legalCommandWord 0x0C = false := by decide
theorem test_wf_refuses_reserved_width : legalCommandWord 0x20 = false := by decide
theorem test_wf_refuses_reserved_bit : legalCommandWord 0x40 = false := by decide
theorem test_wf_takes_last_legal_word : legalCommandWord 0x1B = true := by decide
theorem test_wf_refuses_address_32 : (HostLine.rd (.raw 32)).wf = false := by decide
theorem test_wf_refuses_wide_value : (HostLine.wr .cmd (2 ^ 256)).wf = false := by decide
theorem test_wf_refuses_wide_mask : (HostLine.bnz .status (2 ^ 256) 1).wf = false := by decide
theorem test_wf_refuses_wide_operand : (Pseudo.lda .w512 (limbBase ^ 2)).wf = false := by decide
theorem test_wf_refuses_nine_limbs : (Pseudo.getr 9).wf = false := by decide
theorem test_wf_refuses_undefined_label : programWf [.jmp 1] = false := by decide
theorem test_wf_refuses_double_label : programWf [.label 1, .label 1] = false := by decide
theorem test_wf_takes_wait : programWf (expand (.wait 1)) = true := by decide

/-! ### Encodings: RSV[255:6], W[5:4], OP[3:0], and WE[5], ADDR[4:0], written out field by field (R80) -/

theorem test_decode_add512 : decode (.cmdw (0#250 ++ 0#2 ++ 0b0000#4)) = .ok .add512 := by decide
theorem test_decode_sub512 : decode (.cmdw (0#250 ++ 0#2 ++ 0b0001#4)) = .ok .sub512 := by decide
theorem test_decode_mul512 : decode (.cmdw (0#250 ++ 0#2 ++ 0b0010#4)) = .ok .mul512 := by decide
theorem test_decode_div512 : decode (.cmdw (0#250 ++ 0#2 ++ 0b0011#4)) = .ok .div512 := by decide
theorem test_decode_mod512 : decode (.cmdw (0#250 ++ 0#2 ++ 0b0100#4)) = .ok .mod512 := by decide
theorem test_decode_lt512 : decode (.cmdw (0#250 ++ 0#2 ++ 0b0101#4)) = .ok .lt512 := by decide
theorem test_decode_gt512 : decode (.cmdw (0#250 ++ 0#2 ++ 0b0110#4)) = .ok .gt512 := by decide
theorem test_decode_eq512 : decode (.cmdw (0#250 ++ 0#2 ++ 0b0111#4)) = .ok .eq512 := by decide
theorem test_decode_ge512 : decode (.cmdw (0#250 ++ 0#2 ++ 0b1000#4)) = .ok .ge512 := by decide
theorem test_decode_sqrt512 : decode (.cmdw (0#250 ++ 0#2 ++ 0b1001#4)) = .ok .sqrt512 := by decide
theorem test_decode_log2512 : decode (.cmdw (0#250 ++ 0#2 ++ 0b1010#4)) = .ok .log2512 := by decide
theorem test_decode_modinv512 : decode (.cmdw (0#250 ++ 0#2 ++ 0b1011#4)) = .ok .modinv512 := by decide
theorem test_decode_add1024 : decode (.cmdw (0#250 ++ 1#2 ++ 0b0000#4)) = .ok .add1024 := by decide
theorem test_decode_sub1024 : decode (.cmdw (0#250 ++ 1#2 ++ 0b0001#4)) = .ok .sub1024 := by decide
theorem test_decode_mul1024 : decode (.cmdw (0#250 ++ 1#2 ++ 0b0010#4)) = .ok .mul1024 := by decide
theorem test_decode_div1024 : decode (.cmdw (0#250 ++ 1#2 ++ 0b0011#4)) = .ok .div1024 := by decide
theorem test_decode_mod1024 : decode (.cmdw (0#250 ++ 1#2 ++ 0b0100#4)) = .ok .mod1024 := by decide
theorem test_decode_lt1024 : decode (.cmdw (0#250 ++ 1#2 ++ 0b0101#4)) = .ok .lt1024 := by decide
theorem test_decode_gt1024 : decode (.cmdw (0#250 ++ 1#2 ++ 0b0110#4)) = .ok .gt1024 := by decide
theorem test_decode_eq1024 : decode (.cmdw (0#250 ++ 1#2 ++ 0b0111#4)) = .ok .eq1024 := by decide
theorem test_decode_ge1024 : decode (.cmdw (0#250 ++ 1#2 ++ 0b1000#4)) = .ok .ge1024 := by decide
theorem test_decode_sqrt1024 : decode (.cmdw (0#250 ++ 1#2 ++ 0b1001#4)) = .ok .sqrt1024 := by decide
theorem test_decode_log21024 : decode (.cmdw (0#250 ++ 1#2 ++ 0b1010#4)) = .ok .log21024 := by decide
theorem test_decode_modinv1024 : decode (.cmdw (0#250 ++ 1#2 ++ 0b1011#4)) = .ok .modinv1024 := by decide
theorem test_decode_host_read : decode (.htxn (0#1 ++ 0b01001#5) 0#256) = .ok (.hostRead 0x09) := by decide
theorem test_decode_host_write : decode (.htxn (1#1 ++ 0b01000#5) 0x19#256) = .ok (.hostWrite 0x08 0x19) := by decide
theorem test_decode_reserved_op : decodeCommand 0x0F = .error .reservedOp := by decide
theorem test_decode_reserved_width : decodeCommand 0x30 = .error .reservedWidth := by decide
theorem test_decode_top_reserved_bit : decodeCommand (1#1 ++ 0#255) = .error .reservedBits := by decide
theorem test_table_command : decodeTableWord 256 0x1A = some .log21024 := by decide
theorem test_table_write_header : decodeTableWord 8 0x20 = some (.hostWrite 0 0) := by decide
theorem test_fetch_command_runs : (after (step (State.reset.withFetchWord 256 0x10))).status = ⟨false, true, false, false, 0, 5⟩ := by decide
theorem test_fetch_transaction_runs : (after (step (State.reset.withFetchWord 264 (0x20 + 64 * 7)))).a[0] = 7 := by decide

/-! ### The commands: one vector of 95_test_vectors.md each, two where a corner deserves it -/

theorem test_V_ADD_4 : outcome .add512 #v[m, m, 0, 0] #v[m, m, 0, 0] =
    (#v[m - 1, m, 1, 0, 0, 0, 0, 0], 0x302) := by decide +kernel
theorem test_V_ADD_6 : outcome .add512 #v[1, 0, 7, 9] #v[5, 0, 3, 3] =
    (#v[6, 0, 0, 0, 0, 0, 0, 0], 0x302) := by decide +kernel
theorem test_V_ADD_7 : outcome .add1024 #v[m, m, m, m] #v[m, m, m, m] =
    (#v[m - 1, m, m, m, 1, 0, 0, 0], 0x502) := by decide +kernel
theorem test_V_SUB_3 : outcome .sub512 #v[0, 1, 0, 0] #v[1, 0, 0, 0] =
    (#v[m, 0, 0, 0, 0, 0, 0, 0], 0x302) := by decide +kernel
theorem test_V_SUB_4 : outcome .sub512 #v[0, 0, 0, 0] #v[1, 0, 0, 0] =
    (#v[0, 0, 1, 0, 0, 0, 0, 0], 0x302) := by decide +kernel
theorem test_V_SUB_8 : outcome .sub1024 #v[0, 0, 0, 0] #v[1, 0, 0, 0] =
    (#v[0, 0, 0, 0, 1, 0, 0, 0], 0x502) := by decide +kernel
theorem test_V_SUB_9 : outcome .sub1024 #v[0, 0, 0, 1] #v[1, 0, 0, 0] =
    (#v[m, m, m, 0, 0, 0, 0, 0], 0x502) := by decide +kernel
theorem test_V_MUL_2 : outcome .mul512 #v[m, m, 0, 0] #v[m, m, 0, 0] =
    (#v[1, 0, m - 1, m, 0, 0, 0, 0], 0x402) := by decide +kernel
theorem test_V_MUL_7 : outcome .mul1024 #v[m, m, m, m] #v[m, m, m, m] =
    (#v[1, 0, 0, 0, m - 1, m, m, m], 0x802) := by decide +kernel
theorem test_V_DIV_3 : outcome .div512 #v[7, 0, 0, 0] #v[0, 0, 0, 0] =
    (#v[7, 0, 0, 0, 0, 0, 0, 0], 0x302) := by decide +kernel
theorem test_V_DIV_8 : outcome .div512 #v[0, 1, 0, 0] #v[3, 0, 0, 0] =
    (#v[0x5555555555555555555555555555555555555555555555555555555555555555, 0, 0, 0, 0, 0, 0, 0], 0x302) := by decide +kernel
theorem test_V_DIV_2 : outcome .div1024 #v[100, 0, 0, 0] #v[0, 0, 0, 0] =
    (#v[100, 0, 0, 0, 0, 0, 0, 0], 0x502) := by decide +kernel
theorem test_V_MOD_2 : outcome .mod512 #v[7, 0, 0, 0] #v[0, 0, 0, 0] =
    (#v[0, 0, 0, 0, 0, 0, 0, 0], 0x302) := by decide +kernel
theorem test_V_MOD_6 : outcome .mod512 #v[m, m, 0, 0] #v[0, 1, 0, 0] =
    (#v[m, 0, 0, 0, 0, 0, 0, 0], 0x302) := by decide +kernel
theorem test_V_MOD_7 : outcome .mod1024 #v[100, 0, 0, 0] #v[0, 0, 0, 0] =
    (#v[0, 0, 0, 0, 0, 0, 0, 0], 0x502) := by decide +kernel
theorem test_V_CMP_13 : outcome .lt512 #v[m, 0, 0, 0] #v[0, 1, 0, 0] =
    (#v[1, 0, 0, 0, 0, 0, 0, 0], 0x302) := by decide +kernel
theorem test_V_CMP_21 : outcome .lt1024 #v[0, 0, 0, 1] #v[m, m, m, 0] =
    (#v[0, 0, 0, 0, 0, 0, 0, 0], 0x502) := by decide +kernel
theorem test_V_CMP_10 : outcome .gt512 #v[5, 0, 0, 0] #v[1, 0, 0, 0] =
    (#v[1, 0, 0, 0, 0, 0, 0, 0], 0x302) := by decide +kernel
theorem test_V_CMP_22 : outcome .gt1024 #v[0, 0, 0, 1] #v[m, m, m, 0] =
    (#v[1, 0, 0, 0, 0, 0, 0, 0], 0x502) := by decide +kernel
theorem test_V_CMP_19 : outcome .eq512 #v[5, 0, 1, 0] #v[5, 0, 2, 0] =
    (#v[1, 0, 0, 0, 0, 0, 0, 0], 0x302) := by decide +kernel
theorem test_V_CMP_23 : outcome .eq1024 #v[0, 0, 0, 1] #v[m, m, m, 0] =
    (#v[0, 0, 0, 0, 0, 0, 0, 0], 0x502) := by decide +kernel
theorem test_V_CMP_8 : outcome .ge512 #v[5, 0, 0, 0] #v[5, 0, 0, 0] =
    (#v[1, 0, 0, 0, 0, 0, 0, 0], 0x302) := by decide +kernel
theorem test_V_CMP_24 : outcome .ge1024 #v[0, 0, 0, 1] #v[m, m, m, 0] =
    (#v[1, 0, 0, 0, 0, 0, 0, 0], 0x502) := by decide +kernel
theorem test_V_SQRT_1 : outcome .sqrt512 #v[0, 0, 0, 0] #v[9, 9, 0, 0] =
    (#v[0, 0, 0, 0, 0, 0, 0, 0], 0x302) := by decide +kernel
theorem test_V_SQRT_6 : outcome .sqrt512 #v[m, 0, 0, 0] #v[0, 0, 0, 0] =
    (#v[0xffffffffffffffffffffffffffffffff, 0, 0, 0, 0, 0, 0, 0], 0x302) := by decide +kernel
theorem test_V_SQRT_8 : outcome .sqrt1024 #v[63, 16, 1, 0] #v[0, 0, 0, 0] =
    (#v[7, 1, 0, 0, 0, 0, 0, 0], 0x502) := by decide +kernel
theorem test_V_SQRT_9 : outcome .sqrt1024 #v[m, m, m, m] #v[0, 0, 0, 0] =
    (#v[m, m, 0, 0, 0, 0, 0, 0], 0x502) := by decide +kernel
theorem test_V_LOG2_4 : outcome .log2512 #v[m, 0, 0, 0] #v[0, 0, 0, 0] =
    (#v[255, 0, 0, 0, 0, 0, 0, 0], 0x302) := by decide +kernel
theorem test_V_LOG2_5 : outcome .log2512 #v[0, 1, 0, 0] #v[0, 0, 0, 0] =
    (#v[256, 0, 0, 0, 0, 0, 0, 0], 0x302) := by decide +kernel
theorem test_V_LOG2_8 : outcome .log21024 #v[m, m, m, m] #v[0, 0, 0, 0] =
    (#v[0x3ff, 0, 0, 0, 0, 0, 0, 0], 0x502) := by decide +kernel
theorem test_V_LOG2_10 : outcome .log21024 #v[0, 0, 0, 0] #v[5, 0, 0, 0] =
    (#v[0, 0, 0, 0, 0, 0, 0, 0], 0x026) := by decide +kernel
theorem test_V_MODINV_2 : outcome .modinv512 #v[9, 9, 0, 0] #v[3, 0, 0, 0] =
    (#v[0xaaaaaaaaaaaaaaaaaaaaaaaaaaaaaaaaaaaaaaaaaaaaaaaaaaaaaaaaaaaaaaab, 0xaaaaaaaaaaaaaaaaaaaaaaaaaaaaaaaaaaaaaaaaaaaaaaaaaaaaaaaaaaaaaaaa, 0, 0, 0, 0, 0, 0], 0x302) := by decide +kernel
theorem test_V_MODINV_6 : outcome .modinv512 #v[0, 0, 0, 0] #v[2, 0, 0, 0] =
    (#v[0, 0, 0, 0, 0, 0, 0, 0], 0x026) := by decide +kernel
theorem test_V_MODINV_8 : outcome .modinv1024 #v[0, 0, 0, 0] #v[3, 0, 1, 0] =
    (#v[0xaaaaaaaaaaaaaaaaaaaaaaaaaaaaaaaaaaaaaaaaaaaaaaaaaaaaaaaaaaaaaaab, 0xaaaaaaaaaaaaaaaaaaaaaaaaaaaaaaaaaaaaaaaaaaaaaaaaaaaaaaaaaaaaaaaa, 0, 0, 0, 0, 0, 0], 0x502) := by decide +kernel
theorem test_V_MODINV_9 : outcome .modinv1024 #v[0, 0, 0, 0] #v[4, 0, 0, 1] =
    (#v[0, 0, 0, 0, 0, 0, 0, 0], 0x026) := by decide +kernel

/-! ### The port, the lifecycle and reset (V-LIFE) -/

/-- Reset, presented with the given inputs. -/
def presented (inputs : List Input) : State := { State.reset with inputs := inputs }

/-- A block with `add.512` of 5 and 3 in progress and the given inputs to come. -/
def adding (inputs : List Input) : State :=
  { running #v[5, 0, 0, 0] #v[3, 0, 0, 0] with a := #v[5, 0, 0, 0], b := #v[3, 0, 0, 0], inputs := inputs }

theorem test_host_write_B3 : (after (exec (.hostWrite 0x07 m) State.reset)).b = #v[0, 0, 0, m] := by decide
theorem test_host_write_read_only : after (exec (.hostWrite 0x10 5) State.reset) = State.reset := by decide
theorem test_host_read_R7 : (after (exec (.hostRead 0x17) { State.reset with r := #v[0, 0, 0, 0, 0, 0, 0, 9] })).readData = 9 := by decide
theorem test_host_read_busy_status : (after (exec (.hostRead 0x09) (running State.reset.a State.reset.b))).readData = 0x001 := by decide
theorem test_life4_accept : (after (exec (.hostWrite 0x08 0x10) { State.reset with a := #v[1, 2, 3, 4] })).la = #v[1, 2, 3, 4] := by decide
theorem test_life6_overrun : statusWord (after (step (adding [.txn 0x28 1]))).status = 0x009 := by decide
theorem test_life8_latches : (after (step (after (step (adding [.txn 0x20 100]))))).r[0] = 8 := by decide
theorem test_life11_reset : after (step (adding [.reset])) = State.reset := by decide
theorem test_err8_illegal_wins : statusWord (after (step { adding [.engine] with lcmd := 0x3B })).status = 0x016 := by decide
theorem test_err_unsupported : statusWord (after (exec .add1024 { running State.reset.a State.reset.b with support := { Support.all with w1024 := { SupportRow.all with add := false } } })).status = 0x016 := by decide
theorem test_idle_engine : after (step (presented [.engine])) = State.reset := by decide

/-! ### The host's notation (R91 to R93, PROG-1, PROG-3) -/

theorem test_assemble_modinv1024 : assembleCommand "modinv.1024" = some 0x1B := by decide
theorem test_assemble_rejects_unknown : assembleCommand "ne.512" = none := by decide
theorem test_line_header_write_B1 : lineTxn (.wr (.b 1) 0) = some (0x25, 0) := by decide
theorem test_line_header_read_R2 : lineTxn (.rd (.r 2)) = some (0x12, 0) := by decide
theorem test_expand_lda : expand (.lda .w512 (2 ^ 256)) = [.wr (.a 0) 0, .wr (.a 1) 1] := by decide
theorem test_expand_op_length : (expand (.op .mul .w512 7 9 1)).length = 13 := by decide
theorem test_bnz_taken : hostStep { prog := expand (.wait 1), pos := 2, reads := [(9, 1)] } State.reset = .ok ({ prog := expand (.wait 1), pos := 0, reads := [(9, 1)] }, State.reset) := by decide

/-! ### The host and the block together (R212; PROG-4's two end states are two choices of turns) -/

/-- A host at the first line of a waiting loop, the block on its command, and a choice of turns. -/
def waiting (turns : List Turn) : System :=
  { host := { prog := expand (.wait 1), pos := 0, reads := [] }, stopped := none, block := adding [], turns := turns }

theorem test_turn_engine : statusWord (systemStep (waiting [.engine])).block.status = 0x302 ∧ (systemStep (waiting [.engine])).host.pos = 0 := by decide
theorem test_turn_host : (systemStep (waiting [.host])).host.pos = 1 ∧ (systemStep (waiting [.host])).block.status.busy = true := by decide
theorem test_turn_reset : (systemStep (waiting [.reset])).block = State.reset := by decide
theorem test_turn_fair_busy : (systemStep (waiting [])).block.status.busy = false := by decide
theorem test_turn_fair_idle : (systemStep (System.start (expand (.wait 1)) [])).host.pos = 1 := by decide

/-! ### Witnesses: each statement's hypotheses are met together, each clause at a boundary -/

theorem witness_TransactionHeadersTotal : (32 : Nat) ≤ (0x20#6).toNat ∧ (0x1F#6).toNat < 32 := by decide
theorem witness_EngineTurnRunsDecodedCommand_empty : (adding []).status.busy = true ∧ decodeCommand (adding []).lcmd = .ok .add512 ∧ (adding []).inputs = [] := by decide
theorem witness_EngineTurnRunsDecodedCommand_turn : (adding [.engine]).status.busy = true ∧ decodeCommand (adding [.engine]).lcmd = .ok .add512 ∧ (adding [.engine]).inputs = .engine :: [] := by decide
theorem witness_HostTurnRunsDecodedTransaction : (presented [.txn 0x3F 5]).inputs = .txn 0x3F 5 :: [] ∧ decode (.htxn 0x3F 5) = .ok (.hostWrite 0x1F 5) := by decide
theorem witness_IdleEngineChangesNothing : (presented []).status.busy = false ∧ (presented []).inputs = [] ∧ (presented [.engine]).status.busy = false ∧ (presented [.engine]).inputs = .engine :: [] := by decide
theorem witness_InvalidOp_legal : (adding [.engine]).status.busy = true ∧ (adding [.engine]).inputs = .engine :: [] := by decide
theorem witness_InvalidOp_illegal : ({ adding [.engine] with lcmd := 0x0C }).status.busy = true ∧ 12 ≤ (0x0C#256).toNat % 16 ∧ 2 ≤ (0x20#256).toNat / 16 % 4 ∧ (0x40#256).toNat / 64 ≠ 0 := by decide
theorem witness_ResetClearsEverything : ResetNext (adding [.reset]) ∧ (adding [.reset]).status.busy = true := ⟨⟨[], rfl⟩, rfl⟩
theorem witness_HostReadReturnsWord : ∀ addr ∈ ([0x0A, 0x0F, 0x18, 0x1F] : List Addr), (0x0A ≤ addr.toNat ∧ addr.toNat ≤ 0x0F) ∨ 0x18 ≤ addr.toNat := by decide
theorem witness_CommandWriteAccepted : State.reset.status.busy = false := by decide
theorem witness_CommandWriteRefused : (adding []).status.busy = true := by decide
theorem witness_ReadOnlyAndReservedWritesIgnored : ∀ addr ∈ ([0x0A, 0x0F, 0x18, 0x1F] : List Addr), 0x09 ≤ (0x09 : Addr).toNat ∧ 0x09 ≤ addr.toNat ∧ ((0x0A ≤ addr.toNat ∧ addr.toNat ≤ 0x0F) ∨ 0x18 ≤ addr.toNat) := by decide
theorem witness_OperandWritesIdempotent_operands : (0x07 : Addr).toNat < 8 ∧ exec (.hostWrite 0x07 m) State.reset = .next { State.reset with b := #v[0, 0, 0, m] } := ⟨by decide, rfl⟩
theorem witness_OperandWritesIdempotent_command : State.reset.status.busy = false ∧ ∃ t, exec (.hostWrite 0x08 1) State.reset = .next t := ⟨by decide, _, rfl⟩
theorem witness_DecomposeLimbsOrHeadroom : 1 ≤ 1 ∧ 2 ^ 256 - 1 < (2 ^ 256) ^ 1 ∧ (2 ^ 256) ^ 1 ≤ 2 ^ 256 := by decide
theorem witness_CodecRoundTrip : 1 ≤ 2 ∧ (2 ^ 256) ^ 2 - 1 < (2 ^ 256) ^ 2 := by decide
theorem witness_ResultLimbCounts : Op.mul = .mul ∧ Op.modinv ≠ .mul := by decide
theorem witness_HeadroomAlwaysSufficient : limbBase ^ 4 - 1 < (2 ^ 256) ^ limbCount .w1024 ∧ opFn .mul .w1024 (limbBase ^ 4 - 1) (limbBase ^ 4 - 1) = .ok ((limbBase ^ 4 - 1) * (limbBase ^ 4 - 1)) := ⟨by decide, rfl⟩
theorem witness_Primitives_division : 0 < 1 := by decide
theorem witness_Primitives_bitlen : 0 < 1 ∧ bitlen 1 = 1 := by decide
theorem witness_Primitives_inverse : 1 % 2 = 1 ∧ 3 % 2 = 1 := by decide

/-- No combination is implemented. -/
def noSupport : Support := { w512 := none12, w1024 := none12 }
where
  /-- One width with nothing implemented. -/
  none12 : SupportRow :=
    { add := false, sub := false, mul := false, div := false, mod := false, lt := false, gt := false, eq := false,
      ge := false, sqrt := false, log2 := false, modinv := false }

theorem witness_Results_supported : ∀ op ∈ allOps, ∀ w ∈ [Width.w512, .w1024], supported (adding []).support op w = true := by decide
theorem witness_Results_unsupported : ∀ op ∈ allOps, ∀ w ∈ [Width.w512, .w1024], supported ({ adding [] with support := noSupport }).support op w = false := by decide
theorem witness_AddResult_carry : limbBase ^ 2 ≤ operandA .w512 (running #v[m, m, 0, 0] #v[1, 0, 0, 0]) + operandB .w512 (running #v[m, m, 0, 0] #v[1, 0, 0, 0]) := by decide
theorem witness_SubResult_underflow : operandA .w1024 (running #v[0, 0, 0, 0] #v[1, 0, 0, 0]) < operandB .w1024 (running #v[0, 0, 0, 0] #v[1, 0, 0, 0]) := by decide
theorem witness_Log2Result : operandA .w512 (running #v[1, 0, 0, 0] #v[0, 0, 0, 0]) ≠ 0 ∧ operandA .w512 (running #v[0, 0, 1, 0] #v[0, 0, 0, 0]) = 0 ∧ operandA .w1024 (running #v[0, 0, 0, 1] #v[0, 0, 0, 0]) ≠ 0 ∧ operandA .w1024 (running #v[0, 0, 0, 0] #v[0, 0, 0, 0]) = 0 := by decide
theorem witness_ModinvResult : (running #v[0, 0, 0, 0] #v[1, 0, 0, 0]).lb[0].getLsbD 0 = true ∧ (running #v[0, 0, 0, 0] #v[0, 1, 0, 0]).lb[0].getLsbD 0 = false := by decide
theorem witness_DivisionIdentity : supported (adding []).support .div .w512 = true ∧ supported (adding []).support .mod .w512 = true := by decide
theorem witness_ComparisonConsistency : ∀ op, op = Op.lt ∨ op = .eq ∨ op = .gt ∨ op = .ge → supported (adding []).support op .w1024 = true := by intro op h; rcases h with rfl | rfl | rfl | rfl <;> decide
theorem witness_DomainErrorExactlyTwoCases : supported (adding []).support .log2 .w512 = true ∧ operandA .w512 State.reset = 0 ∧ operandB .w512 State.reset % 2 = 0 := by decide
theorem witness_SuccessCompletionWritesWholeResult : ([1, 2, 3] : List Word).length = 3 ∧ 3 ≤ 8 := by decide
theorem witness_OutcomeDependsOnlyOnLatches : (adding [.engine]).status.busy = true ∧ (adding [.engine]).inputs = .engine :: [] ∧ ({ adding [.engine] with la := #v[5, 0, 1, 2] }).inputs = .engine :: [] ∧ ∀ j : Fin 4, j.val < (if (adding [.engine]).lcmd.toNat / 16 % 4 = 0 then 2 else 4) → (adding [.engine]).la[j] = (#v[5, 0, 1, 2] : Vector Word 4)[j] := by decide
theorem witness_HostCannotDisturbCommand : (adding [.txn 0x28 1, .txn 0x20 9, .engine]).status.busy = true ∧ (adding [.txn 0x28 1, .txn 0x20 9, .engine]).inputs = txnInputs [(0x28, 1), (0x20, 9)] ++ .engine :: [] := by decide
theorem witness_EveryAcceptedCommandCompletes : (adding [.txn 0x28 1, .txn 0x09 0]).status.busy = true ∧ Input.reset ∉ (adding [.txn 0x28 1, .txn 0x09 0]).inputs := by decide
theorem witness_BackToBackCommands_waited : (presented [.txn 0x28#6 0, .engine, .txn 0x28#6 1]).status.busy = false ∧ (presented [.txn 0x28#6 0, .engine, .txn 0x28#6 1]).inputs = [.txn 0x28#6 0, .engine, .txn 0x28#6 1] := by decide
theorem witness_BackToBackCommands_refused : (presented [.txn 0x28#6 0, .txn 0x28#6 1, .engine]).status.busy = false ∧ (presented [.txn 0x28#6 0, .txn 0x28#6 1, .engine]).inputs = [.txn 0x28#6 0, .txn 0x28#6 1, .engine] := by decide

/-- A run's state that meets the invariant without being the reset state: an accepted command in progress. -/
theorem witness_StepKeepsInvariant : RegistersInOrder (adding [.engine]) ∧ step (adding [.engine]) = .next (after (step (adding [.engine]))) := by
  refine ⟨?_, rfl⟩
  constructor <;> simp [adding, running, Status.accepted, State.reset]

theorem witness_ResultWrittenOnlyByCompletion : step (adding [.engine]) = .next (after (step (adding [.engine]))) ∧ (after (step (adding [.engine]))).r ≠ (adding [.engine]).r := ⟨rfl, by decide⟩
theorem witness_CommandAndLatchesChangeOnlyByAcceptance : step (presented [.txn 0x28 1]) = .next (after (step (presented [.txn 0x28 1]))) ∧ (after (step (presented [.txn 0x28 1]))).cmd ≠ (presented [.txn 0x28 1]).cmd := ⟨rfl, by decide⟩
theorem witness_OperandsWrittenOnlyByHost_A : step (adding [.txn 0x23 1]) = .next (after (step (adding [.txn 0x23 1]))) ∧ (after (step (adding [.txn 0x23 1]))).a[3] ≠ (adding [.txn 0x23 1]).a[3] := ⟨rfl, by decide⟩
theorem witness_OperandsWrittenOnlyByHost_B : step (adding [.txn 0x27 1]) = .next (after (step (adding [.txn 0x27 1]))) ∧ (after (step (adding [.txn 0x27 1]))).b[3] ≠ (adding [.txn 0x27 1]).b[3] := ⟨rfl, by decide⟩
theorem witness_BusyRises : (presented [.txn 0x28 1]).status.busy = false ∧ (after (step (presented [.txn 0x28 1]))).status.busy = true := by decide
theorem witness_BusyFalls : (adding [.engine]).status.busy = true ∧ (after (step (adding [.engine]))).status.busy = false := by decide
theorem witness_OverrunSet : (adding [.txn 0x28 1]).status.ovr = false ∧ (after (step (adding [.txn 0x28 1]))).status.ovr = true := by decide
theorem witness_OverrunCleared : ({ presented [.txn 0x28 1] with status := ⟨false, true, false, true, 0, 3⟩ } : State).status.ovr = true ∧ (after (step { presented [.txn 0x28 1] with status := ⟨false, true, false, true, 0, 3⟩ })).status.ovr = false := by decide
theorem witness_ConfigurationIsFixed : ∃ t, step { adding [.reset] with support := noSupport } = .next t := ⟨_, rfl⟩
theorem witness_InstancesAreIndependent : [State.reset, adding [.engine]][1]? = some (adding [.engine]) ∧ stepInstance 1 [State.reset, adding [.engine]] = .next [State.reset, after (step (adding [.engine]))] := ⟨by decide, rfl⟩
theorem witness_LoadPseudosLoadTheOperand : (2 ^ 256) ^ 4 - 1 < (2 ^ 256) ^ limbCount .w1024 ∧ (2 ^ 256) ^ 2 - 1 < (2 ^ 256) ^ limbCount .w512 := by decide
theorem witness_WaitLoopEnds : (waiting [.host, .host]).host.prog = [] ++ expand (.wait 1) ++ [] ∧ HostLine.label 1 ∉ ([] : List HostLine) ∧ (waiting [.host, .host]).host.pos = ([] : List HostLine).length ∧ (waiting [.host, .host]).stopped = none ∧ Turn.reset ∉ (waiting [.host, .host]).turns := by decide
theorem witness_WaitLoopEnds_reset : (waiting [.host, .reset]).stopped = none ∧ Turn.reset ∈ (waiting [.host, .reset]).turns := by decide

end Sys2Proof.Tests
end

section
/-! PROOFS. The statements of `00_scope.md`: the fixed parameters (R7, R9), the arithmetic primitives (R14), and the
configuration that no step changes (R10, R20). -/

namespace Sys2Proof.Proofs

open Sys2Proof.Machine Sys2Proof.Laws

/-! ### The fixed parameters (R7, R9) -/

/-- The modulus that the model writes as a product. -/
theorem modinvModulus_eq_two_pow : modinvModulus = 2 ^ 512 := by
  rw [modinvModulus, limbBase, ← Nat.pow_add]

theorem modinvModulus_pos : 0 < modinvModulus := Nat.mul_pos limbBase_pos limbBase_pos

theorem one_lt_modinvModulus : 1 < modinvModulus := by decide

/-- Settles O19: each parameter is its definition, and the modulus is the power its product makes. -/
theorem fixedParameters : Obligations.FixedParameters := by
  unfold Obligations.FixedParameters
  exact ⟨rfl, rfl, modinvModulus_eq_two_pow, rfl, rfl⟩

/-! ### The arithmetic primitives (R14) -/

/-- The floor quotient is the q with `q·b ≤ a < (q+1)·b`. -/
theorem eq_div_iff {a b q : Nat} (hb : 0 < b) : q = a / b ↔ q * b ≤ a ∧ a < (q + 1) * b := by
  rw [eq_comm, Nat.div_eq_iff hb, Nat.succ_mul]
  omega

/-- The model's digit-by-digit root is the library's. -/
theorem isqrt_eq_sqrt (a : Nat) : isqrt a = Nat.sqrt a :=
  Nat.eq_sqrt.2 (isqrtFuel_root (lt_four_pow_isqrt_fuel a))

theorem eq_isqrt_iff {a r : Nat} : r = isqrt a ↔ r * r ≤ a ∧ a < (r + 1) * (r + 1) := by
  rw [isqrt_eq_sqrt, Nat.eq_sqrt]

theorem bitlen_of_pos {a : Nat} (ha : 0 < a) : bitlen a = Nat.log2 a + 1 := if_neg ha.ne'

theorem eq_bitlen_iff {a k : Nat} (ha : 0 < a) : k = bitlen a ↔ 1 ≤ k ∧ 2 ^ (k - 1) ≤ a ∧ a < 2 ^ k := by
  rw [bitlen_of_pos ha]
  cases k with
  | zero => simp
  | succ n =>
    rw [Nat.add_right_cancel_iff, eq_comm, Nat.log2_eq_iff ha.ne']
    simp

theorem invMod_lt (b : Nat) : invMod b < modinvModulus := invNewton_lt _ 8 modinvModulus_pos

/-- Nine Newton steps give all 512 bits of the inverse of an odd number. -/
theorem mul_invMod {b : Nat} (hb : b % 2 = 1) : b * invMod b % modinvModulus = 1 := by
  have heven : 2 ∣ modinvModulus := Dvd.dvd.mul_right (dvd_pow_self 2 (by decide)) limbBase
  have hpow : 2 ^ 2 ^ 9 = modinvModulus := modinvModulus_eq_two_pow.symm
  have hodd : b % modinvModulus % 2 = 1 := by rw [Nat.mod_mod_of_dvd b heven, hb]
  have hright : b % modinvModulus * invMod b ≡ 1 [MOD 2 ^ 2 ^ 9] :=
    invNewton_right hodd modinvModulus_pos 9 (dvd_of_eq hpow)
  rw [hpow] at hright
  calc b * invMod b % modinvModulus = b % modinvModulus * invMod b % modinvModulus := (Nat.mod_mul_mod ..).symm
    _ = 1 % modinvModulus := hright
    _ = 1 := Nat.mod_eq_of_lt one_lt_modinvModulus

theorem eq_invMod_iff {b r : Nat} (hb : b % 2 = 1) :
    r = invMod b ↔ r < modinvModulus ∧ b * r % modinvModulus = 1 := by
  constructor
  · intro hr
    rw [hr]
    exact ⟨invMod_lt b, mul_invMod hb⟩
  · rintro ⟨hlt, hr⟩
    have hone : 1 % modinvModulus = 1 := Nat.mod_eq_of_lt one_lt_modinvModulus
    exact inverse_unique hlt (invMod_lt b) (hr.trans hone.symm) ((mul_invMod hb).trans hone.symm)

/-- Settles O25, one characterisation for each primitive. -/
theorem primitivesMeetTheirDefinitions : Obligations.PrimitivesMeetTheirDefinitions := by
  unfold Obligations.PrimitivesMeetTheirDefinitions
  refine ⟨fun a b q hb => ⟨eq_div_iff hb, ?_, Nat.mod_lt a hb⟩, fun _ _ => eq_isqrt_iff, fun _ _ => eq_bitlen_iff,
    fun _ _ => eq_invMod_iff⟩
  exact Nat.mod_eq_sub_div_mul

/-! ### The configuration (R10, R20) -/

@[simp] theorem hostRead_support (s : State) (addr : Addr) : (s.hostRead addr).support = s.support := rfl

@[simp] theorem hostWrite_support (s : State) (addr : Addr) (v : Word) :
    (s.hostWrite addr v).support = s.support := by
  rcases hostWrite_cases s addr v with ⟨_, _, h⟩ | ⟨_, _, h⟩ | ⟨_, _, h⟩ | ⟨_, _, h⟩ | ⟨_, h⟩ <;> simp [h]

@[simp] theorem errorComplete_support (s : State) (c : ErrorCode) : (s.errorComplete c).support = s.support := rfl

@[simp] theorem completeState_support (op : Op) (w : Width) (s : State) :
    (completeState op w s).support = s.support := by
  obtain ⟨r, st, h⟩ := completeState_finish op w s
  rw [h, finish_support]

/-- The engine reads SUPPORTED and does not write it. -/
theorem engineTurn_support {s t : State} (h : engineTurn s = .next t) : t.support = s.support := by
  rcases engineTurn_cases s with ⟨_, idle⟩ | ⟨_, op, w, _, run⟩ | ⟨_, _, illegal⟩
  · rw [idle] at h
    cases h
    rfl
  · rw [run] at h
    cases h
    exact completeState_support op w s
  · rw [illegal] at h
    cases h
    exact errorComplete_support s .invalidOp

/-- No step writes SUPPORTED: not the engine's turn, not a transaction, and not reset. -/
theorem step_support {s t : State} (h : step s = .next t) : t.support = s.support := by
  rcases step_cases s with ⟨_, turn⟩ | ⟨_, _, turn⟩ | ⟨_, _, _, _, ⟨_, read⟩ | ⟨_, write⟩⟩ | ⟨_, _, reset⟩
  · exact engineTurn_support (turn.symm.trans h)
  · simpa using engineTurn_support (turn.symm.trans h)
  · rw [read] at h
    cases h
    simp
  · rw [write] at h
    cases h
    simp
  · rw [reset] at h
    cases h
    simp

/-- Settles O56, by what each kind of step does to SUPPORTED. -/
theorem configurationIsFixed : Obligations.ConfigurationIsFixed := by
  unfold Obligations.ConfigurationIsFixed
  exact fun _ _ => step_support

end Sys2Proof.Proofs
end

section
/-! PROOFS. The statements of `10_state.md`: what each register holds after reset, the layout of STATUS, what one step
can do to the registers, and the invariant that every step keeps. -/

namespace Sys2Proof.Proofs

open Sys2Proof.Machine Sys2Proof.Laws

/-! ### The values fit their limb counts (R112)

Every value but a product is below twice the bound of an operand, and a carry limb is worth more than that. -/

theorem modinvModulus_le_operandBound (w : Width) : modinvModulus ≤ limbBase ^ limbCount w := by
  have hcount : 2 ≤ limbCount w := by cases w <;> decide
  calc modinvModulus = limbBase ^ 2 := (Nat.pow_two limbBase).symm
    _ ≤ limbBase ^ limbCount w := Nat.pow_le_pow_right limbBase_pos hcount

theorem subValue_le {w : Width} {a : Nat} (ha : a < limbBase ^ limbCount w) (b : Nat) :
    subValue w a b ≤ limbBase ^ limbCount w := by
  unfold subValue
  split <;> omega

theorem bitlen_sub_one_le (a : Nat) : bitlen a - 1 ≤ a := by
  unfold bitlen
  split
  · exact Nat.zero_le a
  · exact Nat.log2_le_self a

theorem log2Value_ok {a v : Nat} (h : log2Value a = .ok v) : v = bitlen a - 1 := by
  unfold log2Value at h
  split at h
  · cases h
  · exact (Except.ok.inj h).symm

theorem modinvValue_ok {b v : Nat} (h : modinvValue b = .ok v) : v = invMod b := by
  unfold modinvValue at h
  split at h
  · cases h
  · exact (Except.ok.inj h).symm

/-- Below twice the operands' bound: a sum comes closest, and every other value is at most the bound itself. -/
theorem opFn_lt_two_mul {op : Op} {w : Width} {a b v : Nat} (ha : a < limbBase ^ limbCount w)
    (hb : b < limbBase ^ limbCount w) (hop : op ≠ .mul) (h : opFn op w a b = .ok v) :
    v < 2 * limbBase ^ limbCount w := by
  have hpos := limbBase_pow_pos (limbCount w)
  have small {x : Nat} (hx : x ≤ limbBase ^ limbCount w) (hv : opFn op w a b = .ok x) :
      v < 2 * limbBase ^ limbCount w := by
    have : x = v := Except.ok.inj (hv.symm.trans h)
    omega
  have bit_le (p : Prop) [Decidable p] : (if p then 1 else 0) ≤ limbBase ^ limbCount w :=
    (ite_le_one le_rfl (Nat.zero_le 1)).trans hpos
  cases op with
  | add =>
    have : a + b = v := Except.ok.inj h
    omega
  | sub => exact small (subValue_le ha b) rfl
  | mul => exact absurd rfl hop
  | div => exact small ((Nat.div_le_self a _).trans ha.le) rfl
  | mod => exact small ((Nat.mod_le a _).trans ha.le) rfl
  | lt => exact small (bit_le (a < b)) rfl
  | gt => exact small (bit_le (b < a)) rfl
  | eq => exact small (bit_le (a = b)) rfl
  | ge => exact small (bit_le (b ≤ a)) rfl
  | sqrt => exact small ((isqrt_eq_sqrt a ▸ Nat.sqrt_le_self a).trans ha.le) rfl
  | log2 =>
    have hv := log2Value_ok h
    have := bitlen_sub_one_le a
    omega
  | modinv =>
    have hv := modinvValue_ok h
    have := invMod_lt b
    have := modinvModulus_le_operandBound w
    omega

theorem rlc_mul (w : Width) : rlc .mul w = limbCount w + limbCount w := Nat.two_mul _

theorem rlc_of_ne_mul {op : Op} (hop : op ≠ .mul) (w : Width) : rlc op w = limbCount w + 1 := by
  cases op with
  | mul => exact absurd rfl hop
  | _ => rfl

/-- The first half of R112: the value of every operation fits its limb count. -/
theorem opFn_lt {op : Op} {w : Width} {a b v : Nat} (ha : a < limbBase ^ limbCount w)
    (hb : b < limbBase ^ limbCount w) (h : opFn op w a b = .ok v) : v < limbBase ^ rlc op w := by
  by_cases hop : op = .mul
  · subst hop
    have hv : a * b = v := Except.ok.inj h
    rw [rlc_mul, Nat.pow_add, ← hv]
    exact Nat.mul_lt_mul'' ha hb
  · have two_le : 2 ≤ limbBase := by decide
    calc v < 2 * limbBase ^ limbCount w := opFn_lt_two_mul ha hb hop h
      _ ≤ limbBase * limbBase ^ limbCount w := Nat.mul_le_mul_right _ two_le
      _ = limbBase ^ rlc op w := by rw [rlc_of_ne_mul hop, Nat.pow_succ']

/-- The only error an operation's function reports is DOMAIN (R182). -/
theorem opFn_error {op : Op} {w : Width} {a b : Nat} {c : ErrorCode} (h : opFn op w a b = .error c) :
    c = .domain := by
  cases op with
  | log2 =>
    have h : log2Value a = .error c := h
    unfold log2Value at h
    split at h <;> cases h
    rfl
  | modinv =>
    have h : modinvValue b = .error c := h
    unfold modinvValue at h
    split at h <;> cases h
    rfl
  | _ => cases h

/-- An operand of `limbCount w` latched limbs is below the bound of its width (R100). -/
theorem reconstruct_take_lt (limbs : Vector Word 4) (w : Width) :
    reconstruct (limbs.toList.take (limbCount w)) < limbBase ^ limbCount w := by
  have hlen : (limbs.toList.take (limbCount w)).length = limbCount w := by cases w <;> simp [limbCount]
  simpa only [hlen] using reconstruct_lt (limbs.toList.take (limbCount w))

theorem operandA_lt (w : Width) (s : State) : operandA w s < limbBase ^ limbCount w := reconstruct_take_lt s.la w

theorem operandB_lt (w : Width) (s : State) : operandB w s < limbBase ^ limbCount w := reconstruct_take_lt s.lb w

/-! ### What a completion can do (R107, R109, R112, R186) -/

/-- The two ways a command in progress ends: with one of R110's numbers of limbs, or with an error other than
HEADROOM. -/
inductive Completion (s : State) : State → Prop
  | success (limbs : List Word) (k : Nat) (hlen : limbs.length = k) (hk : k = 3 ∨ k = 4 ∨ k = 5 ∨ k = 8) :
      Completion s (s.successComplete limbs k)
  | error (c : ErrorCode) (hc : c ≠ .headroom) : Completion s (s.errorComplete c)

theorem completion_completeState (op : Op) (w : Width) (s : State) : Completion s (completeState op w s) := by
  rcases completeState_cases op w s with ⟨_, _, l, _, _, hlen, _, h⟩ | ⟨_, v, hv, hle, _⟩ | ⟨_, c, hc, h⟩ | ⟨_, h⟩
  · rw [h]
    exact .success l _ hlen (rlc_values op w)
  · have hlt := opFn_lt (operandA_lt w s) (operandB_lt w s) hv
    exact absurd hle hlt.not_ge
  · rw [h, opFn_error hc]
    exact .error .domain (by decide)
  · rw [h]
    exact .error .invalidOp (by decide)

/-- A completion writes R and STATUS, and of STATUS not OVR (R58, R109, R186). -/
theorem Completion.finish {s t : State} (h : Completion s t) :
    ∃ r st, t = s.finish r st ∧ st.busy = false ∧ st.ovr = s.status.ovr := by
  cases h with
  | success limbs k => exact ⟨_, _, rfl, rfl, rfl⟩
  | error c => exact ⟨_, _, rfl, rfl, rfl⟩

theorem engineTurn_idle {s : State} (hb : s.status.busy = false) : engineTurn s = .next s := by
  rcases engineTurn_cases s with ⟨_, h⟩ | ⟨h, _⟩ | ⟨h, _⟩
  · exact h
  · exact absurd h (by simp [hb])
  · exact absurd h (by simp [hb])

theorem engineTurn_completion {s t : State} (hb : s.status.busy = true) (h : engineTurn s = .next t) :
    Completion s t := by
  rcases engineTurn_cases s with ⟨hi, _⟩ | ⟨_, op, w, _, run⟩ | ⟨_, _, illegal⟩
  · exact absurd hb (by simp [hi])
  · rw [run] at h
    cases h
    exact completion_completeState op w s
  · rw [illegal] at h
    cases h
    exact .error .invalidOp (by decide)

/-! ### What one step can do to the registers -/

theorem eq_of_portReg_a {addr : Addr} {i : Fin 4} : portReg addr = .a i → addr = BitVec.ofNat 5 i := by
  revert addr i; decide

theorem eq_of_portReg_b {addr : Addr} {i : Fin 4} : portReg addr = .b i → addr = BitVec.ofNat 5 (4 + i) := by
  revert addr i; decide

theorem eq_of_portReg_cmd {addr : Addr} : portReg addr = .cmd → addr = 0x08#5 := by
  revert addr; decide

/-- A header with WE set is the write header of its address (R80). -/
theorem header_of_weBit {header : Header} : weBit header = true → header = 1#1 ++ addrField header := by
  revert header; decide

/-- Everything one step can do to the registers, with the input that lets it: each state on the right is an update of
`s` with its first input taken. -/
inductive StepEffect (s : State) : State → Prop
  /-- An idle engine's turn, a read, or a write that has no effect (R26, R52, R54, R55). -/
  | keep (v : Word) : StepEffect s ((s.setInputs s.inputs.tail).setReadData v)
  | writeA (i : Fin 4) (v : Word) (h : WriteNext s (BitVec.ofNat 5 i) v) :
      StepEffect s ((s.setInputs s.inputs.tail).writeA i v)
  | writeB (i : Fin 4) (v : Word) (h : WriteNext s (BitVec.ofNat 5 (4 + i)) v) :
      StepEffect s ((s.setInputs s.inputs.tail).writeB i v)
  | refuse (v : Word) (h : WriteNext s 0x08#5 v) (hb : s.status.busy = true) :
      StepEffect s (s.setInputs s.inputs.tail).overrun
  | accept (v : Word) (h : WriteNext s 0x08#5 v) (hb : s.status.busy = false) :
      StepEffect s ((s.setInputs s.inputs.tail).accept v)
  | complete (t : State) (h : EngineNext s) (hb : s.status.busy = true)
      (hc : Completion (s.setInputs s.inputs.tail) t) : StepEffect s t
  | reset (h : ResetNext s) : StepEffect s (s.setInputs s.inputs.tail).assertReset

theorem stepEffect_of_engineTurn {s t : State} (hn : EngineNext s)
    (h : engineTurn (s.setInputs s.inputs.tail) = .next t) : StepEffect s t := by
  cases hb : s.status.busy with
  | false =>
    rw [engineTurn_idle (by simpa using hb)] at h
    cases h
    exact .keep s.readData
  | true => exact .complete t hn hb (engineTurn_completion (by simpa using hb) h)

theorem stepEffect_of_hostWrite {s : State} {addr : Addr} {v : Word} (hn : WriteNext s addr v) :
    StepEffect s ((s.setInputs s.inputs.tail).hostWrite addr v) := by
  rcases hostWrite_cases (s.setInputs s.inputs.tail) addr v with
    ⟨i, hp, h⟩ | ⟨i, hp, h⟩ | ⟨hp, hb, h⟩ | ⟨hp, hb, h⟩ | ⟨_, h⟩
  · rw [h]
    exact .writeA i v (eq_of_portReg_a hp ▸ hn)
  · rw [h]
    exact .writeB i v (eq_of_portReg_b hp ▸ hn)
  · rw [h]
    exact .refuse v (eq_of_portReg_cmd hp ▸ hn) hb
  · rw [h]
    exact .accept v (eq_of_portReg_cmd hp ▸ hn) hb
  · rw [h]
    exact .keep s.readData

theorem step_effect {s t : State} (h : step s = .next t) : StepEffect s t := by
  rcases step_cases s with
    ⟨hi, turn⟩ | ⟨rest, hi, turn⟩ | ⟨header, data, rest, hi, ⟨_, read⟩ | ⟨hwe, write⟩⟩ | ⟨rest, hi, reset⟩
  · have htail : s.setInputs s.inputs.tail = s := by
      rw [hi, List.tail_nil, ← hi]
      rfl
    exact stepEffect_of_engineTurn (.inl hi) (by rw [htail, ← turn, h])
  · exact stepEffect_of_engineTurn (.inr ⟨rest, hi⟩) (by rw [hi, List.tail_cons, ← turn, h])
  · rw [read] at h
    cases h
    obtain rfl : s.inputs.tail = rest := by rw [hi, List.tail_cons]
    exact .keep _
  · rw [write] at h
    cases h
    obtain rfl : s.inputs.tail = rest := by rw [hi, List.tail_cons]
    exact stepEffect_of_hostWrite ⟨_, header_of_weBit hwe ▸ hi⟩
  · rw [reset] at h
    cases h
    obtain rfl : s.inputs.tail = rest := by rw [hi, List.tail_cons]
    exact .reset ⟨_, hi⟩

/-! ### The invariant of the registers (R24, R27, R28, R30 to R33) -/

/-- The invariant speaks of STATUS, R, CMD and LCMD only. -/
theorem registersInOrder_congr {s t : State} (h : RegistersInOrder s) (hst : t.status = s.status) (hr : t.r = s.r)
    (hcmd : t.cmd = s.cmd) (hl : t.lcmd = s.lcmd) : RegistersInOrder t where
  busy_not_done := hst ▸ h.busy_not_done
  err_done := hst ▸ h.err_done
  err_code := hst ▸ h.err_code
  code_produced := hst ▸ h.code_produced
  rlc_success := hst ▸ h.rlc_success
  rlc_otherwise := hst ▸ h.rlc_otherwise
  zero_above := by
    unfold ZeroFrom
    rw [hst, hr]
    exact h.zero_above
  latched := by rw [hl, hcmd, h.latched]
  fresh := by
    unfold ZeroFrom
    rw [hst, hr, hcmd]
    exact h.fresh

/-- Settles O49: neither BUSY nor DONE is set, and every register is 0. -/
theorem resetMeetsInvariant : Obligations.ResetMeetsInvariant := by
  unfold Obligations.ResetMeetsInvariant
  exact
    { busy_not_done := by decide
      err_done := by decide
      err_code := by decide
      code_produced := by decide
      rlc_success := by decide
      rlc_otherwise := by decide
      zero_above := fun hdone => absurd hdone (by decide)
      latched := rfl
      fresh := fun _ _ => ⟨fun j _ => by simp [State.reset], rfl, rfl⟩ }

theorem registersInOrder_assertReset (s : State) : RegistersInOrder s.assertReset :=
  registersInOrder_congr (s := .reset) resetMeetsInvariant rfl rfl rfl rfl

/-- After acceptance STATUS is BUSY alone (R103), so each clause is about fixed bits. -/
theorem registersInOrder_accept (s : State) (v : Word) : RegistersInOrder (s.accept v) := by
  constructor <;> simp

/-- A refused CMD write sets OVR, of which the invariant speaks only while BUSY = 0. -/
theorem registersInOrder_overrun {s : State} (hb : s.status.busy = true) (h : RegistersInOrder s) :
    RegistersInOrder s.overrun where
  busy_not_done := h.busy_not_done
  err_done := h.err_done
  err_code := h.err_code
  code_produced := h.code_produced
  rlc_success := h.rlc_success
  rlc_otherwise := h.rlc_otherwise
  zero_above := h.zero_above
  latched := h.latched
  fresh := by simp [hb]

theorem registersInOrder_successComplete {s : State} {limbs : List Word} {k : Nat} (hlen : limbs.length = k)
    (hk : k = 3 ∨ k = 4 ∨ k = 5 ∨ k = 8) (hl : s.lcmd = s.cmd) : RegistersInOrder (s.successComplete limbs k) where
  busy_not_done := by simp [State.successComplete]
  err_done := by simp [State.successComplete]
  err_code := by simp [State.successComplete]
  code_produced := .inl rfl
  rlc_success _ _ := by rcases hk with rfl | rfl | rfl | rfl <;> simp [State.successComplete]
  rlc_otherwise := by simp [State.successComplete]
  zero_above _ j hj := by
    have hrlc : (BitVec.ofNat 4 k).toNat = k := by rcases hk with rfl | rfl | rfl | rfl <;> rfl
    have hj : (BitVec.ofNat 4 k).toNat ≤ j.val := hj
    exact resultFile_above (by omega)
  latched := hl
  fresh := by simp [State.successComplete]

theorem registersInOrder_errorComplete {s : State} {c : ErrorCode} (hc : c ≠ .headroom) (hl : s.lcmd = s.cmd) :
    RegistersInOrder (s.errorComplete c) where
  busy_not_done := by simp [State.errorComplete]
  err_done := by simp [State.errorComplete]
  err_code := by cases c <;> simp [State.errorComplete, errorCode]
  code_produced := by
    cases c with
    | invalidOp => exact .inr (.inl rfl)
    | domain => exact .inr (.inr rfl)
    | headroom => exact absurd rfl hc
  rlc_success := by simp [State.errorComplete]
  rlc_otherwise _ := rfl
  zero_above _ j _ := by simp [State.errorComplete]
  latched := hl
  fresh := by simp [State.errorComplete]

theorem registersInOrder_completion {s t : State} (hc : Completion s t) (hl : s.lcmd = s.cmd) :
    RegistersInOrder t := by
  cases hc with
  | success limbs k hlen hk => exact registersInOrder_successComplete hlen hk hl
  | error c hc => exact registersInOrder_errorComplete hc hl

theorem StepEffect.registersInOrder {s t : State} (e : StepEffect s t) (h : RegistersInOrder s) :
    RegistersInOrder t := by
  have taken : RegistersInOrder (s.setInputs s.inputs.tail) := registersInOrder_congr h rfl rfl rfl rfl
  cases e with
  | keep v => exact registersInOrder_congr h rfl rfl rfl rfl
  | writeA i v => exact registersInOrder_congr h rfl rfl rfl rfl
  | writeB i v => exact registersInOrder_congr h rfl rfl rfl rfl
  | refuse v _ hb => exact registersInOrder_overrun hb taken
  | accept v => exact registersInOrder_accept _ v
  | complete _ _ _ hc => exact registersInOrder_completion hc taken.latched
  | reset => exact registersInOrder_assertReset _

/-- Settles O50: each effect of a step keeps the invariant, a completion because R112 rules HEADROOM out. -/
theorem stepKeepsInvariant : Obligations.StepKeepsInvariant := by
  unfold Obligations.StepKeepsInvariant
  exact fun s t hs h => (step_effect h).registersInOrder hs

/-! ### Which step changes which register -/

/-- Settles O51: of a step's effects only a completion and reset write R. -/
theorem resultWrittenOnlyByCompletion : Obligations.ResultWrittenOnlyByCompletion := by
  unfold Obligations.ResultWrittenOnlyByCompletion
  intro s t h hne
  cases step_effect h with
  | complete _ hn hb _ => exact .inr ⟨hb, hn⟩
  | reset hn => exact .inl hn
  | _ => exact absurd rfl hne

/-- Settles O52: of a step's effects only acceptance and reset write CMD or a latch. -/
theorem commandAndLatchesChangeOnlyByAcceptance : Obligations.CommandAndLatchesChangeOnlyByAcceptance := by
  unfold Obligations.CommandAndLatchesChangeOnlyByAcceptance
  intro s t h hne
  cases step_effect h with
  | accept v hn hb => exact .inr ⟨v, hn, hb, rfl, rfl, rfl, rfl⟩
  | reset hn => exact .inl hn
  | complete _ _ _ hc =>
    obtain ⟨r, st, rfl, _⟩ := hc.finish
    exact absurd ⟨rfl, rfl, rfl, rfl⟩ hne
  | _ => exact absurd ⟨rfl, rfl, rfl, rfl⟩ hne

/-- A limb that a write to the file changes is the limb written. -/
theorem eq_of_getElem_set_ne {n : Nat} {x : Vector Word n} {i j : Fin n} {v : Word}
    (h : (x.set i v)[j] ≠ x[j]) : i = j := by
  by_contra hij
  exact h (Vector.getElem_set_ne _ _ (fun hval => hij (Fin.ext hval)))

theorem StepEffect.limbA {s t : State} {i : Fin 4} (e : StepEffect s t) (hne : t.a[i] ≠ s.a[i]) :
    ResetNext s ∨ WriteNext s (BitVec.ofNat 5 i) t.a[i] := by
  cases e with
  | writeA j v hn =>
    obtain rfl : j = i := eq_of_getElem_set_ne hne
    exact .inr (by simpa using hn)
  | reset hn => exact .inl hn
  | complete _ _ _ hc =>
    obtain ⟨r, st, rfl, _⟩ := hc.finish
    exact absurd rfl hne
  | _ => exact absurd rfl hne

theorem StepEffect.limbB {s t : State} {i : Fin 4} (e : StepEffect s t) (hne : t.b[i] ≠ s.b[i]) :
    ResetNext s ∨ WriteNext s (BitVec.ofNat 5 (4 + i)) t.b[i] := by
  cases e with
  | writeB j v hn =>
    obtain rfl : j = i := eq_of_getElem_set_ne hne
    exact .inr (by simpa using hn)
  | reset hn => exact .inl hn
  | complete _ _ _ hc =>
    obtain ⟨r, st, rfl, _⟩ := hc.finish
    exact absurd rfl hne
  | _ => exact absurd rfl hne

/-- Settles O53: of a step's effects only a write at a limb's own address and reset write the limb. -/
theorem operandsWrittenOnlyByHost : Obligations.OperandsWrittenOnlyByHost := by
  unfold Obligations.OperandsWrittenOnlyByHost
  exact fun s t i h => ⟨(step_effect h).limbA, (step_effect h).limbB⟩

theorem StepEffect.busy_rises {s t : State} (e : StepEffect s t) (hs : s.status.busy = false)
    (ht : t.status.busy = true) : ∃ v, WriteNext s 0x08#5 v := by
  cases e with
  | accept v hn _ => exact ⟨v, hn⟩
  | refuse v hn _ => exact ⟨v, hn⟩
  | complete _ _ hb _ => simp [hs] at hb
  | reset => simp at ht
  | _ => simp [hs] at ht

theorem StepEffect.busy_falls {s t : State} (e : StepEffect s t) (hs : s.status.busy = true)
    (ht : t.status.busy = false) : ResetNext s ∨ EngineNext s := by
  cases e with
  | complete _ hn _ _ => exact .inr hn
  | reset hn => exact .inl hn
  | accept => simp at ht
  | _ => simp [hs] at ht

/-- Settles O54, by the effects of a step that raise BUSY and those that clear it. -/
theorem busyFallsOnlyByCompletionOrReset : Obligations.BusyFallsOnlyByCompletionOrReset := by
  unfold Obligations.BusyFallsOnlyByCompletionOrReset
  exact fun s t h => ⟨(step_effect h).busy_rises, (step_effect h).busy_falls⟩

theorem StepEffect.ovr_set {s t : State} (e : StepEffect s t) (hs : s.status.ovr = false)
    (ht : t.status.ovr = true) : s.status.busy = true ∧ ∃ v, WriteNext s 0x08#5 v := by
  cases e with
  | refuse v hn hb => exact ⟨hb, v, hn⟩
  | complete _ _ _ hc =>
    obtain ⟨r, st, rfl, _, hovr⟩ := hc.finish
    simp [hovr, hs] at ht
  | reset => simp at ht
  | accept => simp at ht
  | _ => simp [hs] at ht

theorem StepEffect.ovr_cleared {s t : State} (e : StepEffect s t) (hs : s.status.ovr = true)
    (ht : t.status.ovr = false) : ResetNext s ∨ (s.status.busy = false ∧ ∃ v, WriteNext s 0x08#5 v) := by
  cases e with
  | accept v hn hb => exact .inr ⟨hb, v, hn⟩
  | reset hn => exact .inl hn
  | complete _ _ _ hc =>
    obtain ⟨r, st, rfl, _, hovr⟩ := hc.finish
    simp [hovr, hs] at ht
  | refuse => simp at ht
  | _ => simp [hs] at ht

/-- Settles O55, by the effects of a step that set OVR and those that clear it. -/
theorem overrunBitIsSticky : Obligations.OverrunBitIsSticky := by
  unfold Obligations.OverrunBitIsSticky
  exact fun s t h => ⟨(step_effect h).ovr_set, (step_effect h).ovr_cleared⟩

/-! ### The idle engine (R26, R106) -/

theorem step_of_no_inputs {s : State} (h : s.inputs = []) : step s = engineTurn s := by
  simp [step, h]

theorem step_of_engine {s : State} {rest : List Input} (h : s.inputs = .engine :: rest) :
    step s = engineTurn (s.setInputs rest) := by
  simp [step, h]

/-- Settles O7: the engine's turn of an idle block leaves it, and only the input that gave the turn is taken. -/
theorem idleEngineChangesNothing : Obligations.IdleEngineChangesNothing := by
  unfold Obligations.IdleEngineChangesNothing
  intro s hb
  constructor
  · intro hi
    rw [step_of_no_inputs hi, engineTurn_idle hb]
  · intro rest hi
    rw [step_of_engine hi]
    exact engineTurn_idle hb

/-! ### The STATUS word and the values after reset (R25, R38) -/

/-- The field on the left of a concatenation has the weight of the width on its right. -/
theorem toNat_append_eq_add {m n : Nat} (x : BitVec m) (y : BitVec n) :
    (x ++ y).toNat = x.toNat * 2 ^ n + y.toNat := by
  rw [BitVec.toNat_append, ← Nat.shiftLeft_add_eq_or_of_lt y.isLt, Nat.shiftLeft_eq]

theorem statusWord_toNat (st : Status) :
    (statusWord st).toNat =
      st.busy.toNat + 2 * st.done.toNat + 4 * st.err.toNat + 8 * st.ovr.toNat + 16 * st.ecode.toNat +
        256 * st.rlc.toNat := by
  unfold statusWord
  simp only [toNat_append_eq_add, BitVec.toNat_ofBool, BitVec.toNat_zero]
  omega

/-- Settles O13, by the weight of each field in the concatenation. -/
theorem statusWordLayout : Obligations.StatusWordLayout := by
  unfold Obligations.StatusWordLayout
  exact statusWord_toNat

/-- Bits 255 to 12 of STATUS read 0 (R38). -/
theorem statusWord_lt (st : Status) : (statusWord st).toNat < 2 ^ 12 := by
  have hlayout := statusWord_toNat st
  have hbusy := st.busy.toNat_lt
  have hdone := st.done.toNat_lt
  have herr := st.err.toNat_lt
  have hovr := st.ovr.toNat_lt
  have hecode := st.ecode.isLt
  have hrlc := st.rlc.isLt
  omega

/-- Settles O10: every register of the reset state is 0, and the layout of STATUS bounds its word. -/
theorem resetValues : Obligations.ResetValues := by
  unfold Obligations.ResetValues
  refine ⟨fun i => ?_, fun j => ?_, rfl, rfl, rfl, rfl, rfl, rfl, rfl, rfl, by decide, statusWord_lt⟩
  · simp [State.reset]
  · simp [State.reset]

/-! ### The host's operand writes (R21, R22, R53) -/

theorem portRead_a (s : State) (i : Fin 4) : portRead (BitVec.ofNat 5 i) s = s.a[i] := by
  simp [portRead]

theorem portRead_b (s : State) (i : Fin 4) : portRead (BitVec.ofNat 5 (4 + i)) s = s.b[i] := by
  simp [portRead]

theorem hostWrite_a (s : State) (i : Fin 4) (v : Word) : s.hostWrite (BitVec.ofNat 5 i) v = s.writeA i v := by
  simp [State.hostWrite]

theorem hostWrite_b (s : State) (i : Fin 4) (v : Word) :
    s.hostWrite (BitVec.ofNat 5 (4 + i)) v = s.writeB i v := by
  simp [State.hostWrite]

/-- Settles O14, by the address map at the addresses of A and B. -/
theorem operandWriteSetsOneLimb : Obligations.OperandWriteSetsOneLimb := by
  unfold Obligations.OperandWriteSetsOneLimb
  intro s i v
  refine ⟨congrArg _ (hostWrite_a s i v), congrArg _ (hostWrite_b s i v), ⟨_, rfl, ?_⟩, ⟨_, rfl, ?_⟩⟩
  · exact (portRead_a _ i).trans (Vector.getElem_set_self _)
  · exact (portRead_b _ i).trans (Vector.getElem_set_self _)

end Sys2Proof.Proofs
end

section
/-! PROOFS. The statements of `20_memory.md`: the two transactions at every address of the port, the host's turn, the
frame of the commands, and instances side by side. -/

namespace Sys2Proof.Proofs

open Sys2Proof.Machine Sys2Proof.Laws

theorem exec_hostRead (addr : Addr) (s : State) :
    exec (.hostRead addr) s = .next (s.setReadData (portRead addr s)) := rfl

theorem exec_hostWrite (addr : Addr) (v : Word) (s : State) :
    exec (.hostWrite addr v) s = .next (s.hostWrite addr v) := rfl

/-! ### Reads (R52, R54, R56) -/

theorem portRead_cmd (s : State) : portRead 0x08#5 s = s.cmd := by
  simp [portRead]

theorem portRead_status (s : State) : portRead 0x09#5 s = statusWord s.status := by
  simp [portRead]

theorem portRead_r (s : State) (i : Fin 8) : portRead (BitVec.ofNat 5 (0x10 + i)) s = s.r[i] := by
  simp [portRead]

theorem portRead_reserved {addr : Addr} (s : State)
    (h : (0x0A ≤ addr.toNat ∧ addr.toNat ≤ 0x0F) ∨ 0x18 ≤ addr.toNat) : portRead addr s = 0 := by
  simp [portRead, (portReg_reserved addr).2 h]

/-- A read whose word is known leaves the block with that word in `readData`. -/
theorem exec_hostRead_of_portRead {addr : Addr} {s : State} {v : Word} (h : portRead addr s = v) :
    exec (.hostRead addr) s = .next { s with readData := v } := by
  rw [exec_hostRead, h]
  rfl

/-- Settles O12, by the word the port reads in each region of the address map. -/
theorem hostReadReturnsWord : Obligations.HostReadReturnsWord := by
  unfold Obligations.HostReadReturnsWord
  exact fun s =>
    ⟨fun i => exec_hostRead_of_portRead (portRead_a s i), fun i => exec_hostRead_of_portRead (portRead_b s i),
      exec_hostRead_of_portRead (portRead_cmd s), exec_hostRead_of_portRead (portRead_status s),
      fun i => exec_hostRead_of_portRead (portRead_r s i),
      fun _ hreserved => exec_hostRead_of_portRead (portRead_reserved s hreserved)⟩

/-! ### Writes without effect (R54, R55) -/

/-- From 0x09 upward the address map has read-only and reserved addresses only (R51). -/
theorem portReg_of_nine_le {addr : Addr} :
    0x09 ≤ addr.toNat → portReg addr = .status ∨ (∃ i, portReg addr = .r i) ∨ portReg addr = .reserved := by
  revert addr; decide

theorem hostWrite_of_nine_le {addr : Addr} (s : State) (v : Word) (h : 0x09 ≤ addr.toNat) :
    s.hostWrite addr v = s := by
  rcases portReg_of_nine_le h with hp | ⟨i, hp⟩ | hp
  · simp [State.hostWrite, hp]
  · simp [State.hostWrite, hp]
  · simp [State.hostWrite, hp]

/-- Settles O17, by the address map from 0x09 upward. -/
theorem readOnlyAndReservedWritesIgnored : Obligations.ReadOnlyAndReservedWritesIgnored := by
  unfold Obligations.ReadOnlyAndReservedWritesIgnored
  intro s addr v
  constructor
  · intro haddr
    rw [exec_hostWrite, hostWrite_of_nine_le s v haddr]
  · intro hreserved
    exact exec_hostRead_of_portRead (portRead_reserved s hreserved)

/-! ### Writes done twice (R57, R103, R104) -/

theorem writeA_writeA (s : State) (i : Fin 4) (v : Word) : (s.writeA i v).writeA i v = s.writeA i v := by
  simp [State.writeA]

theorem writeB_writeB (s : State) (i : Fin 4) (v : Word) : (s.writeB i v).writeB i v = s.writeB i v := by
  simp [State.writeB]

/-- The addresses below 0x08 are those of A and B (R51). -/
theorem eq_ofNat_of_lt_eight {addr : Addr} : addr.toNat < 8 →
    (∃ i : Fin 4, addr = BitVec.ofNat 5 i) ∨ ∃ i : Fin 4, addr = BitVec.ofNat 5 (4 + i) := by
  revert addr; decide

theorem hostWrite_hostWrite_of_lt_eight {addr : Addr} (s : State) (v : Word) (h : addr.toNat < 8) :
    (s.hostWrite addr v).hostWrite addr v = s.hostWrite addr v := by
  rcases eq_ofNat_of_lt_eight h with ⟨i, rfl⟩ | ⟨i, rfl⟩
  · rw [hostWrite_a, hostWrite_a, writeA_writeA]
  · rw [hostWrite_b, hostWrite_b, writeB_writeB]

theorem hostWrite_cmd_of_idle {s : State} (hb : s.status.busy = false) (v : Word) :
    s.hostWrite 0x08#5 v = s.accept v := by
  simp [State.hostWrite, State.writeCmd, hb]

theorem hostWrite_cmd_of_busy {s : State} (hb : s.status.busy = true) (v : Word) :
    s.hostWrite 0x08#5 v = s.overrun := by
  simp [State.hostWrite, State.writeCmd, hb]

/-- The second of two CMD writes meets BUSY = 1 and sets OVR, which acceptance cleared. -/
theorem hostWrite_cmd_twice_ne {s : State} (hb : s.status.busy = false) (v : Word) :
    (s.hostWrite 0x08#5 v).hostWrite 0x08#5 v ≠ s.hostWrite 0x08#5 v := by
  rw [hostWrite_cmd_of_idle hb, hostWrite_cmd_of_busy (by simp)]
  intro heq
  have hovr : (s.accept v).overrun.status.ovr = (s.accept v).status.ovr := by rw [heq]
  simp at hovr

/-- Settles O18: an operand write sets a limb to the value it has, and a second CMD write sets OVR. -/
theorem operandWritesIdempotent : Obligations.OperandWritesIdempotent := by
  unfold Obligations.OperandWritesIdempotent
  constructor
  · intro s t addr v haddr h
    rw [exec_hostWrite] at h
    cases h
    rw [exec_hostWrite, hostWrite_hostWrite_of_lt_eight s v haddr]
  · intro s t v hb h htwice
    rw [exec_hostWrite] at h
    cases h
    rw [exec_hostWrite] at htwice
    exact hostWrite_cmd_twice_ne hb v (Host.Outcome.next.inj htwice)

/-! ### The host's turn (R61, R87) -/

theorem step_of_txn {s : State} {header : Header} {data : Word} {rest : List Input}
    (h : s.inputs = .txn header data :: rest) : step s = exec (decodeTxn header data) (s.setInputs rest) := by
  simp [step, h]

/-- Settles O6: a step whose input is a transaction decodes it and runs it. -/
theorem hostTurnRunsDecodedTransaction : Obligations.HostTurnRunsDecodedTransaction := by
  unfold Obligations.HostTurnRunsDecodedTransaction
  intro s header data rest i hinputs hdecode
  have hi : decodeTxn header data = i := Except.ok.inj hdecode
  rw [step_of_txn hinputs, hi]
  rfl

/-! ### The frame of the commands (R58, R109, R186) -/

theorem keepsAllButResult_finish (s : State) (r : Vector Word 8) (st : Status) :
    KeepsAllButResult s (s.finish r st) :=
  ⟨rfl, rfl, rfl, rfl, rfl, rfl, rfl, rfl, rfl⟩

theorem Completion.done {s t : State} (h : Completion s t) : t.status.done = true := by
  cases h with
  | success limbs k => rfl
  | error c => rfl

/-- Settles O41: each command's run is a completion, and a completion writes R and STATUS but not OVR. -/
theorem commandsChangeOnlyResultAndStatus : Obligations.CommandsChangeOnlyResultAndStatus := by
  unfold Obligations.CommandsChangeOnlyResultAndStatus
  intro op w s
  have hcompletion := completion_completeState op w s
  obtain ⟨r, st, hfinish, hbusy, hovr⟩ := hcompletion.finish
  refine ⟨completeState op w s, exec_command op w s, ?_, ?_, ?_, hcompletion.done⟩
  · rw [hfinish]
    exact keepsAllButResult_finish s r st
  · rw [hfinish, finish_status, hovr]
  · rw [hfinish, finish_status, hbusy]

/-! ### Instances side by side (R66) -/

/-- A step of a block of the list runs that block's own step and puts the result in its place. -/
theorem stepInstance_next {blocks after : List State} {i : Nat} {s : State} (hs : blocks[i]? = some s)
    (h : stepInstance i blocks = .next after) : ∃ t, step s = .next t ∧ after = blocks.set i t := by
  simp only [stepInstance, hs] at h
  cases hstep : step s with
  | next t =>
    rw [hstep] at h
    exact ⟨t, rfl, (Host.Outcome.next.inj h).symm⟩
  | fault f => cases f
  | refused f =>
    rw [hstep] at h
    cases h

/-- Settles O57: the list of blocks changes at the block that stepped and nowhere else. -/
theorem instancesAreIndependent : Obligations.InstancesAreIndependent := by
  unfold Obligations.InstancesAreIndependent
  intro blocks after i s hs h
  obtain ⟨t, hstep, rfl⟩ := stepInstance_next hs h
  obtain ⟨hi, _⟩ := List.getElem?_eq_some_iff.1 hs
  exact ⟨⟨t, hstep, List.getElem?_set_self hi⟩, fun j hj => List.getElem?_set_ne hj.symm⟩

end Sys2Proof.Proofs
end

section
/-! PROOFS. The statements of `30_encoding.md` about words and headers: the decoder against the encoder and the table of
command words, the transaction headers, and the words the assembler emits. -/

namespace Sys2Proof.Proofs

open Sys2Proof.Machine Sys2Proof.Laws

/-! ### Command words (R80 to R86) -/

theorem opNumber_lt (op : Op) : opNumber op < 12 := by cases op <;> decide

theorem widthNumber_lt (w : Width) : widthNumber w < 2 := by cases w <;> decide

theorem opField_toNat (word : Word) : (opField word).toNat = word.toNat % 16 := by
  simp [opField]

theorem widthField_toNat (word : Word) : (widthField word).toNat = word.toNat / 16 % 4 := by
  simp [widthField, Nat.shiftRight_eq_div_pow]

theorem rsvField_eq_zero_iff (word : Word) : rsvField word = 0 ↔ word.toNat < 64 := by
  have hword := word.isLt
  rw [← BitVec.toNat_inj, rsvField, BitVec.extractLsb'_toNat, Nat.shiftRight_eq_div_pow]
  change _ = 0 ↔ _
  omega

theorem opOfField_eq_some_iff (f : BitVec 4) (op : Op) : opOfField f = some op ↔ f.toNat = opNumber op := by
  cases op <;> revert f <;> decide

theorem widthOfField_eq_some_iff (f : BitVec 2) (w : Width) : widthOfField f = some w ↔ f.toNat = widthNumber w := by
  cases w <;> revert f <;> decide

/-- A word decodes exactly if no RSV bit is set and OP and W each select something. -/
theorem decodeCommand_eq_ok_iff (word : Word) (i : Instr) :
    decodeCommand word = .ok i ↔ rsvField word = 0 ∧
      ∃ op w, opOfField (opField word) = some op ∧ widthOfField (widthField word) = some w ∧
        i = commandInstr op w := by
  unfold decodeCommand
  by_cases hrsv : rsvField word = 0
  · rw [if_neg (not_not.2 hrsv)]
    cases opOfField (opField word) <;> cases widthOfField (widthField word) <;> simp [hrsv, eq_comm]
  · rw [if_pos hrsv]
    exact iff_of_false (by simp) (fun h => hrsv h.1)

/-- The three fields of a word hold an operator's number, a width's and 0 exactly if the word is `OP | (W << 4)`. -/
theorem fields_eq_iff (word : Word) (op : Op) (w : Width) :
    (rsvField word = 0 ∧ opOfField (opField word) = some op ∧ widthOfField (widthField word) = some w) ↔
      word.toNat = opNumber op + 16 * widthNumber w := by
  have hop := opNumber_lt op
  have hw := widthNumber_lt w
  rw [rsvField_eq_zero_iff, opOfField_eq_some_iff, widthOfField_eq_some_iff, opField_toNat, widthField_toNat]
  omega

/-- Settles O3, by what each of the three fields must hold. -/
theorem legalWordsAreTheTable : Obligations.LegalWordsAreTheTable := by
  unfold Obligations.LegalWordsAreTheTable
  intro word i
  rw [decodeCommand_eq_ok_iff]
  constructor
  · rintro ⟨hrsv, op, w, hop, hw, hi⟩
    exact ⟨op, w, hi, (fields_eq_iff word op w).1 ⟨hrsv, hop, hw⟩⟩
  · rintro ⟨op, w, hi, hword⟩
    obtain ⟨hrsv, hop, hw⟩ := (fields_eq_iff word op w).2 hword
    exact ⟨hrsv, op, w, hop, hw, hi⟩

/-! ### The decoder against the encoder (R80, R85 to R87) -/

/-- The encoder's 24 command words are `OP | (W << 4)` (R85). -/
theorem encode_commandInstr (op : Op) (w : Width) :
    encode (commandInstr op w) = .cmdw (BitVec.ofNat 256 (opNumber op + 16 * widthNumber w)) := by
  cases op <;> cases w <;> rfl

theorem toNat_ofNat_commandNumber (op : Op) (w : Width) :
    (BitVec.ofNat 256 (opNumber op + 16 * widthNumber w)).toNat = opNumber op + 16 * widthNumber w := by
  have hop := opNumber_lt op
  have hw := widthNumber_lt w
  exact Nat.mod_eq_of_lt (by omega)

/-- A header with WE clear is the read header of its address (R80). -/
theorem header_of_not_weBit {header : Header} : weBit header = false → header = 0#1 ++ addrField header := by
  revert header; decide

/-- The data word of a read is not looked at (R80). -/
theorem decode_readHeader (addr : Addr) (data : Word) : decode (.htxn (0#1 ++ addr) data) = .ok (.hostRead addr) :=
  congrArg Except.ok (decodeTxn_read addr data)

theorem decode_writeHeader (addr : Addr) (data : Word) :
    decode (.htxn (1#1 ++ addr) data) = .ok (.hostWrite addr data) :=
  congrArg Except.ok (decodeTxn_write addr data)

theorem decode_encode (i : Instr) : decode (encode i) = .ok i := by
  obtain ⟨op, w, rfl⟩ | ⟨addr, rfl⟩ | ⟨addr, data, rfl⟩ := instr_cases i
  · rw [encode_commandInstr]
    exact (legalWordsAreTheTable _ _).2 ⟨op, w, rfl, toNat_ofNat_commandNumber op w⟩
  · exact decode_readHeader addr 0
  · exact decode_writeHeader addr data

theorem encode_of_decodeCommand {word : Word} {i : Instr} (h : decodeCommand word = .ok i) :
    encode i = .cmdw word := by
  obtain ⟨op, w, rfl, hword⟩ := (legalWordsAreTheTable word i).1 h
  rw [encode_commandInstr, ← hword, BitVec.ofNat_toNat, BitVec.setWidth_eq]

/-- Settles O2: decoding undoes encoding, and a packet that decodes is a legal command word, a write header with its
data, or a read header with data that the encoder writes as 0. -/
theorem decodeEncodeAgree : Obligations.DecodeEncodeAgree := by
  unfold Obligations.DecodeEncodeAgree
  intro p i
  constructor
  · intro h
    cases p with
    | cmdw word => exact .inl (encode_of_decodeCommand h).symm
    | htxn header data =>
      cases hwe : weBit header with
      | true =>
        obtain ⟨addr, rfl⟩ : ∃ addr, header = 1#1 ++ addr := ⟨_, header_of_weBit hwe⟩
        rw [decode_writeHeader] at h
        cases h
        exact .inl rfl
      | false =>
        obtain ⟨addr, rfl⟩ : ∃ addr, header = 0#1 ++ addr := ⟨_, header_of_not_weBit hwe⟩
        rw [decode_readHeader] at h
        cases h
        exact .inr ⟨addr, data, rfl, rfl⟩
  · rintro (rfl | ⟨addr, data, rfl, rfl⟩)
    · exact decode_encode i
    · exact decode_readHeader addr data

/-- Settles O1: each packet is the encoding of the instruction beside it. -/
theorem writtenWordsDecode : Obligations.WrittenWordsDecode := by
  unfold Obligations.WrittenWordsDecode
  exact ⟨decode_encode .mod512, decode_encode .eq1024, decode_encode .modinv1024,
    decode_encode (.hostWrite 0x08#5 0x10#256), decode_encode (.hostRead 0x09#5)⟩

/-! ### Transaction headers (R87) -/

theorem writeHeader_eq {header : Header} :
    32 ≤ header.toNat → header = 1#1 ++ BitVec.ofNat 5 (header.toNat % 32) := by
  revert header; decide

theorem readHeader_eq {header : Header} : header.toNat < 32 → header = 0#1 ++ BitVec.ofNat 5 header.toNat := by
  revert header; decide

/-- Settles O4: the upper 32 headers are the write headers of the 32 addresses, the lower 32 the read headers. -/
theorem transactionHeadersTotal : Obligations.TransactionHeadersTotal := by
  unfold Obligations.TransactionHeadersTotal
  intro header data
  constructor
  · intro hwrite
    rw [← decode_writeHeader, ← writeHeader_eq hwrite]
  · intro hread
    rw [← decode_readHeader _ data, ← readHeader_eq hread]

/-! ### The assembler's words (R91) -/

theorem mem_allCommands (op : Op) (w : Width) : (op, w) ∈ allCommands := by
  cases op <;> cases w <;> decide

/-- The 24 mnemonics differ, so a mnemonic's own command is the first of the list that has it. -/
theorem find_mnemonic : ∀ c ∈ allCommands,
    allCommands.find? (fun d => commandMnemonic d.1 d.2 == commandMnemonic c.1 c.2) = some c := by
  decide

theorem assembleCommand_commandMnemonic (op : Op) (w : Width) :
    assembleCommand (commandMnemonic op w) = some (commandWord op w) := by
  simp only [assembleCommand, find_mnemonic (op, w) (mem_allCommands op w)]

theorem commandWord_eq (op : Op) (w : Width) :
    commandWord op w = BitVec.ofNat 256 (opNumber op + 16 * widthNumber w) := by
  rw [commandWord, encode_commandInstr, packetWord]

/-- Settles O58: the assembler finds the mnemonic's own command and emits the encoder's word for it. -/
theorem mnemonicsAssembleToTheirWords : Obligations.MnemonicsAssembleToTheirWords := by
  unfold Obligations.MnemonicsAssembleToTheirWords
  intro op w
  rw [assembleCommand_commandMnemonic, commandWord_eq]

end Sys2Proof.Proofs
end

section
/-! PROOFS. The writes that `lda` and `ldb` expand to (`30_encoding.md` R93). -/

namespace Sys2Proof.Proofs

open Sys2Proof.Machine Sys2Proof.Laws

/-! ### The writes of `lda` and `ldb` (R93) -/

/-- The limbs of an operand file after the limbs of a list are written to it from limb `i` upward. -/
def writeLimbs : Nat → List Word → Vector Word 4 → Vector Word 4
  | _, [], file => file
  | i, limb :: rest, file => writeLimbs (i + 1) rest (file.set (Fin.ofNat 4 i) limb)

/-- The limbs below and above the written ones are kept. -/
theorem writeLimbs_toList {i : Nat} {limbs : List Word} (file : Vector Word 4) (h : i + limbs.length ≤ 4) :
    (writeLimbs i limbs file).toList = file.toList.take i ++ limbs ++ file.toList.drop (i + limbs.length) := by
  induction limbs generalizing i file with
  | nil => simp [writeLimbs]
  | cons limb rest ih =>
    simp only [List.length_cons] at h
    have hi : i % 4 = i := Nat.mod_eq_of_lt (by omega)
    have hlen : i < file.toList.length := by simp; omega
    have hset : (file.set (Fin.ofNat 4 i) limb).toList = file.toList.set i limb := by simp [hi, Vector.toList]
    have htake : (file.toList.set i limb).take (i + 1) = file.toList.take i ++ [limb] := by
      rw [List.take_add_one, List.take_set_of_le (by omega), List.getElem?_set_self hlen, Option.toList_some]
    rw [writeLimbs, ih _ (by omega), hset, htake, List.drop_set_of_lt (by omega)]
    simp [Nat.add_assoc, Nat.add_comm 1]

theorem reconstruct_take_writeLimbs {limbs : List Word} (file : Vector Word 4) (h : limbs.length ≤ 4) :
    reconstruct ((writeLimbs 0 limbs file).toList.take limbs.length) = reconstruct limbs := by
  rw [writeLimbs_toList file (by omega)]
  simp

theorem writeLimbs_getElem_above {limbs : List Word} (file : Vector Word 4) {j : Fin 4} (h : limbs.length ≤ j.val) :
    (writeLimbs 0 limbs file)[j] = file[j] := by
  have hlist := writeLimbs_toList (i := 0) (limbs := limbs) file (by omega)
  have hget : (writeLimbs 0 limbs file).toList[j.val]? = file.toList[j.val]? := by
    rw [hlist]
    simp [List.getElem?_append_right h, Nat.add_sub_cancel' h]
  simpa using hget

/-- A write line performs the host's write at its register. -/
theorem performLines_write (reg : HostReg) (v : Word) (rest : List HostLine) (s : State) :
    performLines (.wr reg v.toNat :: rest) s = performLines rest (s.hostWrite (regAddr reg) v) := by
  simp [performLines, lineTxn]

theorem performLines_loadLines_a (i : Nat) (limbs : List Word) (s : State) :
    performLines (loadLines .a i limbs) s = .ok { s with a := writeLimbs i limbs s.a } := by
  induction limbs generalizing i s with
  | nil => rfl
  | cons limb rest ih =>
    rw [loadLines, performLines_write, regAddr, hostWrite_a, ih]
    rfl

theorem performLines_loadLines_b (i : Nat) (limbs : List Word) (s : State) :
    performLines (loadLines .b i limbs) s = .ok { s with b := writeLimbs i limbs s.b } := by
  induction limbs generalizing i s with
  | nil => rfl
  | cons limb rest ih =>
    rw [loadLines, performLines_write, regAddr, hostWrite_b, ih]
    rfl

theorem limbCount_le (w : Width) : limbCount w ≤ 4 := by cases w <;> decide

/-- A value that fits its width expands to the writes of its limbs, and they leave it in the first N limbs of a file. -/
theorem loadOperand_loads (reg : Fin 4 → HostReg) {w : Width} {v : Nat} (h : v < (2 ^ 256) ^ limbCount w) :
    ∃ limbs, loadOperand reg w v = loadLines reg 0 limbs ∧
      ∀ file : Vector Word 4, reconstruct ((writeLimbs 0 limbs file).toList.take (limbCount w)) = v ∧
        ∀ j : Fin 4, limbCount w ≤ j.val → (writeLimbs 0 limbs file)[j] = file[j] := by
  rcases decompose_cases v (limbCount w) with ⟨_, limbs, hlimbs, hlen, hvalue⟩ | ⟨hle, _⟩
  · have hcount : limbs.length ≤ 4 := hlen ▸ limbCount_le w
    refine ⟨limbs, by rw [loadOperand, hlimbs], fun file => ?_⟩
    rw [← hlen, ← hvalue]
    exact ⟨reconstruct_take_writeLimbs file hcount, fun j => writeLimbs_getElem_above file⟩
  · exact absurd h hle.not_gt

/-- Settles O59: the writes put the limbs of the value over the first N limbs of the file. -/
theorem loadPseudosLoadTheOperand : Obligations.LoadPseudosLoadTheOperand := by
  unfold Obligations.LoadPseudosLoadTheOperand
  intro w v s hv
  constructor
  · obtain ⟨limbs, hlines, hloads⟩ := loadOperand_loads .a hv
    obtain ⟨hvalue, habove⟩ := hloads s.a
    exact ⟨_, by rw [expand, hlines, performLines_loadLines_a], hvalue, habove, rfl⟩
  · obtain ⟨limbs, hlines, hloads⟩ := loadOperand_loads .b hv
    obtain ⟨hvalue, habove⟩ := hloads s.b
    exact ⟨_, by rw [expand, hlines, performLines_loadLines_b], hvalue, habove, rfl⟩

end Sys2Proof.Proofs
end

section
/-! PROOFS. The polling loop of `wait` (`30_encoding.md` R93, `70_reset_and_hazards.md` R205, R212). -/

namespace Sys2Proof.Proofs

open Sys2Proof.Machine Sys2Proof.Laws

/-! ### One line of a host program (R92) -/

theorem hostStep_label {h : HostCtl} {name : Label} (s : State) (hline : h.prog[h.pos]? = some (.label name)) :
    hostStep h s = .ok (h.advance, s) := by
  simp [hostStep, hline]

theorem hostStep_rd {h : HostCtl} {reg : HostReg} (s : State) (hline : h.prog[h.pos]? = some (.rd reg)) :
    hostStep h s = .ok ({ h.advance with reads := (regAddr reg, portRead (regAddr reg) s) :: h.reads },
      s.hostRead (regAddr reg)) := by
  simp [hostStep, hline, State.hostRead]

/-- A branch whose masked word is 0 is not taken. -/
theorem hostStep_bnz_zero {h : HostCtl} {reg : HostReg} {mask : Nat} {target : Label} {word : Word} (s : State)
    (hline : h.prog[h.pos]? = some (.bnz reg mask target)) (hread : lastRead h.reads (regAddr reg) = some word)
    (hzero : word &&& BitVec.ofNat 256 mask = 0) : hostStep h s = .ok (h.advance, s) := by
  simp only [hostStep, hline, hread, if_pos hzero]

/-- A branch whose masked word is not 0 goes to its label. -/
theorem hostStep_bnz_taken {h : HostCtl} {reg : HostReg} {mask n : Nat} {target : Label} {word : Word} (s : State)
    (hline : h.prog[h.pos]? = some (.bnz reg mask target)) (hread : lastRead h.reads (regAddr reg) = some word)
    (hne : word &&& BitVec.ofNat 256 mask ≠ 0) (htarget : labelPos h.prog target = some n) :
    hostStep h s = .ok ({ h with pos := n }, s) := by
  simp only [hostStep, hline, hread, if_neg hne, HostCtl.jumpTo, htarget]

theorem hostTurn_of_hostStep {c : System} {h : HostCtl} {s : State} (hrun : c.stopped = none)
    (hstep : hostStep c.host c.block = .ok (h, s)) : c.hostTurn = { c with host := h, block := s } := by
  simp only [System.hostTurn, hrun, hstep]

/-! ### The BUSY bit of a STATUS word (R25, R26) -/

theorem statusWord_busy (st : Status) : (statusWord st).getLsbD 0 = st.busy := by
  simp only [statusWord, BitVec.getLsbD_append]
  simp

theorem and_one_eq_zero_iff (word : Word) : word &&& BitVec.ofNat 256 1 = 0 ↔ word.getLsbD 0 = false := by
  rw [BitVec.and_one_eq_setWidth_ofBool_getLsbD]
  cases word.getLsbD 0 <;> decide

/-! ### The engine's turn and the word the host last read -/

theorem completeState_setReadData (op : Op) (w : Width) (s : State) (v : Word) :
    completeState op w (s.setReadData v) = (completeState op w s).setReadData v := by
  have hresult : computeResult op w (s.setReadData v) = computeResult op w s := rfl
  unfold completeState
  rw [hresult]
  cases computeResult op w s <;> rfl

/-- The engine looks at no word the host has read. -/
theorem engineTurn_setReadData {s t : State} (h : engineTurn s = .next t) (v : Word) :
    engineTurn (s.setReadData v) = .next (t.setReadData v) := by
  have hcommand : engineCommand (s.setReadData v) = engineCommand s := rfl
  rcases engineTurn_cases s with ⟨hb, idle⟩ | ⟨hb, op, w, hd, run⟩ | ⟨hb, ⟨e, hd⟩, illegal⟩
  · rw [idle] at h
    cases h
    exact engineTurn_idle hb
  · rw [run] at h
    cases h
    rw [engineTurn, hcommand, engineCommand, hb, hd, ← completeState_setReadData]
    exact exec_command op w _
  · rw [illegal] at h
    cases h
    rw [engineTurn, hcommand, engineCommand, hb, hd]
    rfl

theorem engineTurn_leaves_idle {s t : State} (h : engineTurn s = .next t) : t.status.busy = false := by
  cases hb : s.status.busy with
  | true => exact (engineTurn_completes hb h).1
  | false =>
    rw [engineTurn_idle hb] at h
    cases h
    exact hb

/-! ### The loop in its program -/

/-- The three lines of the `wait` loop stand in `prog` from line `p` on, and a branch to its label goes to its first
line. -/
structure WaitLoopAt (prog : List HostLine) (p : Nat) (loop : Label) : Prop where
  label_line : prog[p]? = some (.label loop)
  read_line : prog[p + 1]? = some (.rd .status)
  branch_line : prog[p + 2]? = some (.bnz .status 1 loop)
  target : labelPos prog loop = some p

theorem labelPos_append_label {before : List HostLine} {loop : Label} (rest : List HostLine)
    (h : .label loop ∉ before) : labelPos (before ++ .label loop :: rest) loop = some before.length := by
  induction before with
  | nil => simp [labelPos]
  | cons line before ih =>
    obtain ⟨hline, hbefore⟩ := not_or.1 (List.mem_cons.not.1 h)
    simp [labelPos, Ne.symm hline, ih hbefore]

theorem waitLoopAt_append {before : List HostLine} {loop : Label} (after : List HostLine)
    (h : .label loop ∉ before) : WaitLoopAt (before ++ expand (.wait loop) ++ after) before.length loop where
  label_line := by simp [expand, waitLines]
  read_line := by simp [expand, waitLines]
  branch_line := by simp [expand, waitLines]
  target := by
    rw [List.append_assoc]
    exact labelPos_append_label _ h

/-! ### Turns in the loop

`R` says that no reset comes, and `final` is the state the engine's turn leaves the block in; while `R` holds, the block
stays one engine's turn away from `final`, but for the word last read. -/

/-- If no reset comes, the engine's turn leaves the block in `final` but for the word last read. -/
def Settles (R : Prop) (final block : State) : Prop := R → ∃ v, engineTurn block = .next (final.setReadData v)

/-- The host has read a STATUS word with BUSY = 0, the block is idle, and if no reset comes the word is the final
STATUS. -/
structure SawIdle (R : Prop) (final block : State) (word : Word) : Prop where
  bit_clear : word.getLsbD 0 = false
  idle : block.status.busy = false
  final_word : R → word = statusWord final.status

/-- Where the host is in the loop: `n` turns of its own from the loop's end, if the block is idle. -/
inductive LoopPlace (p : Nat) (R : Prop) (final : State) (h : HostCtl) (block : State) : Nat → Prop
  | past (word : Word) (hpos : h.pos = p + 3) (hread : lastRead h.reads 0x09#5 = some word)
      (hword : SawIdle R final block word) : LoopPlace p R final h block 0
  | leaving (word : Word) (hpos : h.pos = p + 2) (hread : lastRead h.reads 0x09#5 = some word)
      (hword : SawIdle R final block word) : LoopPlace p R final h block 1
  | reading (hpos : h.pos = p + 1) : LoopPlace p R final h block 2
  | labelled (hpos : h.pos = p) : LoopPlace p R final h block 3
  | returning (word : Word) (hpos : h.pos = p + 2) (hread : lastRead h.reads 0x09#5 = some word)
      (hword : word.getLsbD 0 = true) : LoopPlace p R final h block 4

/-- The host runs the loop of its program, or has just left it. -/
structure Polling (prog : List HostLine) (p : Nat) (R : Prop) (final : State) (n : Nat) (c : System) : Prop where
  prog_eq : c.host.prog = prog
  running : c.stopped = none
  settles : Settles R final c.block
  place : LoopPlace p R final c.host c.block n

section
variable {prog : List HostLine} {p n : Nat} {loop : Label} {R : Prop} {final : State} {c : System}

theorem Polling.le_four (h : Polling prog p R final n c) : n ≤ 4 := by
  cases h.place <;> decide

theorem Settles.setReadData {block : State} (h : Settles R final block) (v : Word) :
    Settles R final (block.setReadData v) := by
  intro hR
  obtain ⟨u, hu⟩ := h hR
  exact ⟨v, engineTurn_setReadData hu v⟩

/-- An idle block is in its final state. -/
theorem Settles.eq_of_idle {block : State} (h : Settles R final block) (hb : block.status.busy = false) (hR : R) :
    ∃ v, block = final.setReadData v := by
  obtain ⟨v, hv⟩ := h hR
  rw [engineTurn_idle hb] at hv
  exact ⟨v, Host.Outcome.next.inj hv⟩

theorem Settles.engineTurn {block t : State} (h : Settles R final block) (ht : engineTurn block = .next t) :
    Settles R final t := by
  intro hR
  obtain ⟨v, hv⟩ := h hR
  rw [ht] at hv
  exact ⟨v, by rw [engineTurn_idle (engineTurn_leaves_idle ht), hv]⟩

/-- A turn of the block alone that leaves it idle keeps the host's place. -/
theorem LoopPlace.of_block {h : HostCtl} {s t : State} (hplace : LoopPlace p R final h s n)
    (ht : t.status.busy = false) : LoopPlace p R final h t n := by
  cases hplace with
  | past word hpos hread hword => exact .past word hpos hread ⟨hword.bit_clear, ht, hword.final_word⟩
  | leaving word hpos hread hword => exact .leaving word hpos hread ⟨hword.bit_clear, ht, hword.final_word⟩
  | reading hpos => exact .reading hpos
  | labelled hpos => exact .labelled hpos
  | returning word hpos hread hword => exact .returning word hpos hread hword

theorem Polling.engineTurn (h : Polling prog p R final n c) :
    Polling prog p R final n (c.takeTurn .engine) ∧ (c.takeTurn .engine).block.status.busy = false := by
  obtain ⟨t, ht, heq⟩ := engineTurn_of_system c
  have idle := engineTurn_leaves_idle ht
  rw [heq]
  exact ⟨⟨h.prog_eq, h.running, h.settles.engineTurn ht, h.place.of_block idle⟩, idle⟩

theorem Polling.resetTurn (h : Polling prog p R final n c) (hR : ¬R) :
    Polling prog p R final n (c.takeTurn .reset) :=
  ⟨h.prog_eq, h.running, fun hr => absurd hr hR, h.place.of_block rfl⟩

/-- A read of STATUS while the block is idle sees the final STATUS. -/
theorem Settles.sawIdle {block : State} (h : Settles R final block) (hb : block.status.busy = false) (v : Word) :
    SawIdle R final (block.setReadData v) (statusWord block.status) where
  bit_clear := by rw [statusWord_busy, hb]
  idle := hb
  final_word hR := by
    obtain ⟨u, hu⟩ := h.eq_of_idle hb hR
    rw [hu, setReadData_status]

/-- A host's turn in the loop brings it one place on, unless it reads BUSY = 1 and has to go round again. -/
theorem Polling.hostTurn (hl : WaitLoopAt prog p loop) (h : Polling prog p R final (n + 1) c) :
    ∃ m, Polling prog p R final m c.hostTurn ∧ c.hostTurn.block.status = c.block.status ∧
      (c.block.status.busy = false → m = n) := by
  obtain ⟨rfl, hrun, hsettles, hplace⟩ := h
  cases hplace with
  | labelled hpos =>
    have hstep := hostStep_label c.block (hpos ▸ hl.label_line)
    rw [hostTurn_of_hostStep hrun hstep]
    exact ⟨2, ⟨rfl, hrun, hsettles, .reading (congrArg (· + 1) hpos)⟩, rfl, fun _ => rfl⟩
  | reading hpos =>
    have hstep := hostStep_rd c.block (hpos ▸ hl.read_line)
    have hword : portRead (regAddr .status) c.block = statusWord c.block.status := portRead_status c.block
    rw [hostTurn_of_hostStep hrun hstep, hword]
    have hsettles' : Settles R final (c.block.hostRead (regAddr .status)) := hsettles.setReadData _
    cases hb : c.block.status.busy with
    | false =>
      have hsaw := hsettles.sawIdle hb (portRead (regAddr .status) c.block)
      exact ⟨1, ⟨rfl, hrun, hsettles', .leaving _ (congrArg (· + 1) hpos) rfl hsaw⟩, rfl, fun _ => rfl⟩
    | true =>
      have hbit : (statusWord c.block.status).getLsbD 0 = true := by rw [statusWord_busy, hb]
      exact ⟨4, ⟨rfl, hrun, hsettles', .returning _ (congrArg (· + 1) hpos) rfl hbit⟩, rfl, fun hi => nomatch hi⟩
  | leaving word hpos hread hword =>
    have hzero := (and_one_eq_zero_iff word).2 hword.bit_clear
    have hstep := hostStep_bnz_zero c.block (hpos ▸ hl.branch_line) hread hzero
    rw [hostTurn_of_hostStep hrun hstep]
    exact ⟨0, ⟨rfl, hrun, hsettles, .past word (congrArg (· + 1) hpos) hread hword⟩, rfl, fun _ => rfl⟩
  | returning word hpos hread hword =>
    have hne : word &&& BitVec.ofNat 256 1 ≠ 0 := by rw [Ne, and_one_eq_zero_iff, hword]; decide
    have hstep := hostStep_bnz_taken c.block (hpos ▸ hl.branch_line) hread hne hl.target
    rw [hostTurn_of_hostStep hrun hstep]
    exact ⟨3, ⟨rfl, hrun, hsettles, .labelled rfl⟩, rfl, fun _ => rfl⟩

theorem Polling.setTurns (h : Polling prog p R final n c) (rest : List Turn) :
    Polling prog p R final n (c.setTurns rest) :=
  ⟨h.prog_eq, h.running, h.settles, h.place⟩

/-- Any turn but a reset that `R` rules out keeps the host in the loop or lets it leave. -/
theorem Polling.takeTurn (hl : WaitLoopAt prog p loop) (h : Polling prog p R final (n + 1) c) (turn : Turn)
    (hR : R → turn ≠ .reset) : ∃ m, Polling prog p R final m (c.takeTurn turn) := by
  cases turn with
  | host =>
    obtain ⟨m, hm, _, _⟩ := h.hostTurn hl
    exact ⟨m, hm⟩
  | engine => exact ⟨n + 1, h.engineTurn.1⟩
  | reset => exact ⟨n + 1, h.resetTurn fun hr => hR hr rfl⟩

/-! ### The loop ends -/

theorem systemStep_of_no_turns (h : c.turns = []) : systemStep c = c.takeTurn c.fairTurn := by
  simp [systemStep, h]

theorem systemStep_of_turn {turn : Turn} {rest : List Turn} (h : c.turns = turn :: rest) :
    systemStep c = (c.setTurns rest).takeTurn turn := by
  simp [systemStep, h]

/-- With no turns listed and the block idle, every turn is the host's and brings it one place on. -/
theorem Polling.past_of_idle (hl : WaitLoopAt prog p loop) (h : Polling prog p R final n c) (hturns : c.turns = [])
    (hb : c.block.status.busy = false) : Polling prog p R final 0 (systemRun n c) := by
  induction n generalizing c with
  | zero => exact h
  | succ n ih =>
    have hstep : systemStep c = c.hostTurn := by
      rw [systemStep_of_no_turns hturns, System.fairTurn, hb]
      rfl
    have hstepTurns : (systemStep c).turns = [] := by rw [hstep, (hostTurn_cases c).1, hturns]
    obtain ⟨m, hm, hstatus, hmn⟩ := h.hostTurn hl
    rw [hmn hb, ← hstep] at hm
    exact ih hm hstepTurns (by rw [hstep, hstatus, hb])

/-- With no turns listed, a command in progress completes first. -/
theorem Polling.past_of_no_turns (hl : WaitLoopAt prog p loop) (h : Polling prog p R final n c)
    (hturns : c.turns = []) : ∃ k ≤ 5, Polling prog p R final 0 (systemRun k c) := by
  have hn := h.le_four
  cases hb : c.block.status.busy with
  | false => exact ⟨n, by omega, h.past_of_idle hl hturns hb⟩
  | true =>
    have hstep : systemStep c = c.takeTurn .engine := by
      rw [systemStep_of_no_turns hturns, System.fairTurn, hb]
      rfl
    obtain ⟨hpolling, hidle⟩ := h.engineTurn
    rw [← hstep] at hpolling hidle
    have hstepTurns : (systemStep c).turns = [] := by rw [hstep, takeTurn_turns, hturns]
    have hpast := hpolling.past_of_idle hl hstepTurns hidle
    exact ⟨n + 1, by omega, hpast⟩

/-- The listed turns keep the host in the loop or let it leave, and after them it leaves within five steps. -/
theorem Polling.past (hl : WaitLoopAt prog p loop) {turns : List Turn} (h : Polling prog p R final n c)
    (hturns : c.turns = turns) (hR : R → .reset ∉ turns) :
    ∃ k ≤ turns.length + 5, Polling prog p R final 0 (systemRun k c) := by
  induction turns generalizing c n with
  | nil => simpa using h.past_of_no_turns hl hturns
  | cons turn rest ih =>
    cases n with
    | zero => exact ⟨0, by omega, h⟩
    | succ n =>
      have hturn : R → turn ≠ .reset := fun hr heq => hR hr (heq ▸ List.mem_cons_self)
      have hrest : R → .reset ∉ rest := fun hr hmem => hR hr (List.mem_cons_of_mem _ hmem)
      obtain ⟨m, hm⟩ := (h.setTurns rest).takeTurn hl turn hturn
      rw [← systemStep_of_turn hturns] at hm
      have hstepTurns : (systemStep c).turns = rest := by
        rw [systemStep_of_turn hturns, takeTurn_turns, setTurns_turns]
      obtain ⟨k, hk, hpast⟩ := ih hm hstepTurns hrest
      exact ⟨k + 1, by rw [List.length_cons]; omega, hpast⟩

end

/-- Settles O60: the host starts at the loop's label, and `Polling.past` brings it past the loop. -/
theorem waitLoopEnds : Obligations.WaitLoopEnds := by
  unfold Obligations.WaitLoopEnds
  intro c loop before after hprog hlabel hpos hrun
  have hl : WaitLoopAt c.host.prog before.length loop := hprog ▸ waitLoopAt_append after hlabel
  obtain ⟨final, hfinal, -⟩ := present_engine c.block
  have hstart : Polling c.host.prog before.length (.reset ∉ c.turns) final 3 c :=
    ⟨rfl, hrun, fun _ => ⟨final.readData, hfinal⟩, .labelled hpos⟩
  obtain ⟨k, hk, hprog', hrun', hsettles, hplace⟩ := hstart.past hl rfl id
  obtain ⟨word, hpos', hread, hbit, hidle, hword⟩ := hplace
  refine ⟨k, _, word, hk, rfl, hprog', hpos', hrun', hidle, hread, hbit, fun hR => ⟨final, hfinal, ?_, hword hR⟩⟩
  obtain ⟨v, hv⟩ := hsettles.eq_of_idle hidle hR
  rw [hv]
  rfl

end Sys2Proof.Proofs
end

section
/-! PROOFS. The statements of `40_codec.md` about values: the Limb Codec, the result limb counts, and that they always
suffice. -/

namespace Sys2Proof.Proofs

open Sys2Proof.Machine Sys2Proof.Laws

/-! ### The Limb Codec (R100 to R102, R111) -/

theorem reconstruct_eq_sum (limbs : List Word) :
    reconstruct limbs = ∑ i ∈ Finset.range limbs.length, (limbs.getD i 0).toNat * limbBase ^ i := by
  induction limbs with
  | nil => rfl
  | cons limb rest ih =>
    rw [reconstruct_cons, ih, List.length_cons, Finset.sum_range_succ', Nat.add_comm, Finset.mul_sum]
    congr 1
    · refine Finset.sum_congr rfl fun i _ => ?_
      rw [List.getD_cons_succ, Nat.pow_succ']
      exact Nat.mul_left_comm ..
    · rw [List.getD_cons_zero, Nat.pow_zero, Nat.mul_one]

/-- Settles O20: each limb is worth `2^256` times the one before it, and the positional sum of n limbs is bounded. -/
theorem reconstructIsPositionalSum : Obligations.ReconstructIsPositionalSum := by
  unfold Obligations.ReconstructIsPositionalSum
  exact fun limbs => ⟨reconstruct_eq_sum limbs, reconstruct_lt limbs⟩

theorem decompose_of_lt {v k : Nat} (h : v < limbBase ^ k) :
    ∃ limbs, decompose v k = .ok limbs ∧ limbs.length = k ∧ reconstruct limbs = v := by
  rcases decompose_cases v k with ⟨_, hlimbs⟩ | ⟨hle, _⟩
  · exact hlimbs
  · exact absurd h hle.not_gt

theorem decompose_of_le {v k : Nat} (h : limbBase ^ k ≤ v) : decompose v k = .error .headroom := by
  rcases decompose_cases v k with ⟨hlt, _⟩ | ⟨_, herror⟩
  · exact absurd h hlt.not_ge
  · exact herror

/-- Settles O21: the limbs of a decomposition are the digits of the value they reconstruct to. -/
theorem decomposeLimbsOrHeadroom : Obligations.DecomposeLimbsOrHeadroom := by
  unfold Obligations.DecomposeLimbsOrHeadroom
  intro v k _
  refine ⟨fun hlt => ?_, decompose_of_le⟩
  obtain ⟨limbs, hlimbs, hlen, rfl⟩ := decompose_of_lt hlt
  exact ⟨limbs, hlimbs, hlen, fun i _ => reconstruct_limb limbs i⟩

theorem decompose_reconstruct (limbs : List Word) : decompose (reconstruct limbs) limbs.length = .ok limbs := by
  obtain ⟨limbs', hlimbs, hlen, hvalue⟩ := decompose_of_lt (reconstruct_lt limbs)
  rw [hlimbs, reconstruct_inj hlen hvalue]

/-- Settles O22, the second trip because a value and a length determine the limbs. -/
theorem codecRoundTrip : Obligations.CodecRoundTrip := by
  unfold Obligations.CodecRoundTrip
  refine ⟨fun v k _ hlt => ?_, decompose_reconstruct⟩
  obtain ⟨limbs, hlimbs, _, hvalue⟩ := decompose_of_lt hlt
  exact ⟨limbs, hlimbs, hvalue⟩

/-! ### Result limb counts and headroom (R110, R112) -/

/-- Settles O23, at the limb counts 2 and 4 of the widths. -/
theorem resultLimbCounts : Obligations.ResultLimbCounts := by
  unfold Obligations.ResultLimbCounts
  intro op
  constructor
  · rintro rfl
    exact ⟨rlc_mul .w512, rlc_mul .w1024⟩
  · intro hop
    exact ⟨rlc_of_ne_mul hop .w512, rlc_of_ne_mul hop .w1024⟩

/-- Each of the three sources of an error gives its own code, and the one that could give HEADROOM is not reached. -/
theorem computeResult_ne_headroom (op : Op) (w : Width) (s : State) : computeResult op w s ≠ .error .headroom := by
  unfold computeResult
  split
  · cases hvalue : opFn op w (operandA w s) (operandB w s) with
    | ok v =>
      obtain ⟨limbs, hlimbs, _⟩ := decompose_of_lt (opFn_lt (operandA_lt w s) (operandB_lt w s) hvalue)
      simp [hlimbs]
    | error c => simp [opFn_error hvalue]
  · simp

/-- Settles O24: the bound of each operation, and so no command in any state reports HEADROOM. -/
theorem headroomAlwaysSufficient : Obligations.HeadroomAlwaysSufficient := by
  unfold Obligations.HeadroomAlwaysSufficient
  exact ⟨fun _ _ _ _ _ => opFn_lt, computeResult_ne_headroom⟩

end Sys2Proof.Proofs
end

section
/-! PROOFS. The statements of `40_codec.md` about a command's life: its acceptance or refusal, the engine's turn, what
its outcome depends on, and that it completes whatever the host does meanwhile. -/

namespace Sys2Proof.Proofs

open Sys2Proof.Machine Sys2Proof.Laws

/-! ### Acceptance and refusal (R103, R104) -/

/-- Settles O15: a CMD write to an idle block is its acceptance. -/
theorem commandWriteAccepted : Obligations.CommandWriteAccepted := by
  unfold Obligations.CommandWriteAccepted
  exact fun _ v hb => congrArg _ (hostWrite_cmd_of_idle hb v)

/-- Settles O16: a CMD write to a busy block sets OVR. -/
theorem commandWriteRefused : Obligations.CommandWriteRefused := by
  unfold Obligations.CommandWriteRefused
  exact fun _ v hb => congrArg _ (hostWrite_cmd_of_busy hb v)

/-! ### The engine's turn (R106, R107, R109) -/

theorem engineTurn_of_decodeCommand {s : State} {i : Instr} (hb : s.status.busy = true)
    (hd : decodeCommand s.lcmd = .ok i) : engineTurn s = exec i s := by
  simp [engineTurn, engineCommand, hb, hd]

theorem engineTurn_of_illegal {s : State} {e : DecodeError} (hb : s.status.busy = true)
    (hd : decodeCommand s.lcmd = .error e) : engineTurn s = .next (s.errorComplete .invalidOp) := by
  simp [engineTurn, engineCommand, hb, hd]

/-- Settles O5: an engine turn, listed or not, decodes LCMD and runs the command. -/
theorem engineTurnRunsDecodedCommand : Obligations.EngineTurnRunsDecodedCommand := by
  unfold Obligations.EngineTurnRunsDecodedCommand
  intro s i hb hd
  constructor
  · intro hinputs
    rw [step_of_no_inputs hinputs, engineTurn_of_decodeCommand hb hd]
  · intro rest hinputs
    rw [step_of_engine hinputs]
    exact engineTurn_of_decodeCommand hb hd

/-- Settles O42, by the limbs of a result file. -/
theorem successCompletionWritesWholeResult : Obligations.SuccessCompletionWritesWholeResult := by
  unfold Obligations.SuccessCompletionWritesWholeResult
  intro s limbs k hlen _
  refine ⟨fun j => ?_, rfl, keepsAllButResult_finish s _ _⟩
  rw [State.successComplete, finish_r]
  split
  · exact resultFile_get limbs j
  · exact resultFile_above (by omega)

/-! ### What an outcome depends on (R113) -/

/-- Two completions have one outcome: the same R, and the same STATUS but for OVR. -/
def SameOutcome (t v : State) : Prop := t.r = v.r ∧ AgreeButOvr t.status v.status

theorem sameOutcome_errorComplete (s u : State) (c : ErrorCode) :
    SameOutcome (s.errorComplete c) (u.errorComplete c) := ⟨rfl, rfl, rfl, rfl, rfl, rfl⟩

theorem sameOutcome_successComplete (s u : State) (limbs : List Word) (k : Nat) :
    SameOutcome (s.successComplete limbs k) (u.successComplete limbs k) := ⟨rfl, rfl, rfl, rfl, rfl, rfl⟩

theorem sameOutcome_completeState {op : Op} {w : Width} {s u : State}
    (h : computeResult op w s = computeResult op w u) : SameOutcome (completeState op w s) (completeState op w u) := by
  unfold completeState
  rw [h]
  cases computeResult op w u with
  | ok limbs => exact sameOutcome_successComplete s u limbs _
  | error c => exact sameOutcome_errorComplete s u c

theorem computeResult_congr {op : Op} {w : Width} {s u : State} (hsupport : s.support = u.support)
    (ha : operandA w s = operandA w u) (hb : operandB w s = operandB w u) :
    computeResult op w s = computeResult op w u := by
  unfold computeResult
  rw [hsupport, ha, hb]

/-- The engine looks at LCMD, at SUPPORTED and at the two operands of the command's width, and at nothing else. -/
theorem engineTurn_sameOutcome {s u : State} (hs : s.status.busy = true) (hu : u.status.busy = true)
    (hlcmd : s.lcmd = u.lcmd) (hsupport : s.support = u.support)
    (hoperands : ∀ op w, decodeCommand s.lcmd = .ok (commandInstr op w) →
      operandA w s = operandA w u ∧ operandB w s = operandB w u) :
    ∃ t v, engineTurn s = .next t ∧ engineTurn u = .next v ∧ SameOutcome t v := by
  cases hd : decodeCommand s.lcmd with
  | error e =>
    exact ⟨_, _, engineTurn_of_illegal hs hd, engineTurn_of_illegal hu (hlcmd ▸ hd), sameOutcome_errorComplete s u _⟩
  | ok i =>
    obtain ⟨op, w, rfl⟩ := decodeCommand_ok hd
    obtain ⟨ha, hb⟩ := hoperands op w hd
    refine ⟨_, _, (engineTurn_of_decodeCommand hs hd).trans (exec_command op w s),
      (engineTurn_of_decodeCommand hu (hlcmd ▸ hd)).trans (exec_command op w u), ?_⟩
    exact sameOutcome_completeState (computeResult_congr hsupport ha hb)

/-- N is 2 or 4 by the W field of the command word (R82). -/
theorem limbCount_of_decodeCommand {word : Word} {op : Op} {w : Width}
    (h : decodeCommand word = .ok (commandInstr op w)) :
    limbCount w = if word.toNat / 16 % 4 = 0 then 2 else 4 := by
  have hencode := (encode_commandInstr op w).symm.trans (encode_of_decodeCommand h)
  have hop := opNumber_lt op
  have hw := widthNumber_lt w
  have hfield : (opNumber op + 16 * widthNumber w) / 16 % 4 = widthNumber w := by omega
  rw [← Packet.cmdw.inj hencode, toNat_ofNat_commandNumber, hfield]
  cases w <;> rfl

theorem toList_take_congr {x y : Vector Word 4} {n : Nat} (h : ∀ j : Fin 4, j.val < n → x[j] = y[j]) :
    x.toList.take n = y.toList.take n := by
  apply List.ext_getElem
  · simp
  · intro i hi _
    rw [List.length_take, Vector.length_toList, Nat.lt_min] at hi
    simpa using h ⟨i, hi.2⟩ hi.1

/-- Settles O45: a command's operands are made of the first N limbs of LA and LB. -/
theorem outcomeDependsOnlyOnLatches : Obligations.OutcomeDependsOnlyOnLatches := by
  unfold Obligations.OutcomeDependsOnlyOnLatches
  intro s u rest rest' hs hu hsi hui hlcmd hsupport hlimbs
  rw [step_of_engine hsi, step_of_engine hui]
  refine engineTurn_sameOutcome hs hu hlcmd hsupport fun op w hd => ?_
  have hcount := limbCount_of_decodeCommand hd
  rw [setInputs_lcmd] at hcount
  rw [← hcount] at hlimbs
  exact ⟨congrArg reconstruct (toList_take_congr fun j hj => (hlimbs j hj).1),
    congrArg reconstruct (toList_take_congr fun j hj => (hlimbs j hj).2)⟩

/-! ### Runs -/

theorem step_next (s : State) : ∃ t, step s = .next t := by
  rcases step_cases s with ⟨_, turn⟩ | ⟨rest, _, turn⟩ | ⟨_, _, _, _, ⟨_, read⟩ | ⟨_, write⟩⟩ | ⟨_, _, reset⟩
  · obtain ⟨t, ht, _⟩ := present_engine s
    exact ⟨t, turn.trans ht⟩
  · obtain ⟨t, ht, _⟩ := present_engine (s.setInputs rest)
    exact ⟨t, turn.trans ht⟩
  · exact ⟨_, read⟩
  · exact ⟨_, write⟩
  · exact ⟨_, reset⟩

theorem run_of_step {M : Host.Core} {s t : M.State} (h : M.step s = .next t) (k : Nat) :
    M.run (k + 1) s = M.run k t := by
  rw [Host.Core.run, h]

/-- A run is continued by one step at its end. -/
theorem run_succ {M : Host.Core} {k : Nat} {s u t : M.State} (hrun : M.run k s = .next u)
    (hstep : M.step u = .next t) : M.run (k + 1) s = .next t := by
  induction k generalizing s with
  | zero =>
    cases hrun
    exact run_of_step hstep 0
  | succ k ih =>
    rw [Host.Core.run] at hrun ⊢
    cases hs : M.step s with
    | next s' =>
      rw [hs] at hrun
      exact ih hrun
    | fault f =>
      rw [hs] at hrun
      cases hrun
    | refused f =>
      rw [hs] at hrun
      cases hrun

theorem StepEffect.inputs {s t : State} (e : StepEffect s t) : t.inputs = s.inputs.tail := by
  cases e with
  | complete _ _ _ hc =>
    obtain ⟨r, st, rfl, _⟩ := hc.finish
    rfl
  | _ => rfl

/-! ### A command in progress while the host goes on (R104, R105) -/

/-- The command in progress in `s` is still in progress in `u`, with everything its completion looks at. -/
structure CommandKept (s u : State) : Prop where
  busy : u.status.busy = true
  cmd : u.cmd = s.cmd
  lcmd : u.lcmd = s.lcmd
  la : u.la = s.la
  lb : u.lb = s.lb
  support : u.support = s.support

theorem CommandKept.refl {s : State} (hb : s.status.busy = true) : CommandKept s s := ⟨hb, rfl, rfl, rfl, rfl, rfl⟩

theorem CommandKept.trans {s u x : State} (h : CommandKept s u) (h' : CommandKept u x) : CommandKept s x :=
  ⟨h'.busy, h'.cmd.trans h.cmd, h'.lcmd.trans h.lcmd, h'.la.trans h.la, h'.lb.trans h.lb,
    h'.support.trans h.support⟩

/-- Of a step's effects on a busy block only a completion and reset end the command. -/
theorem StepEffect.commandKept {s t : State} (e : StepEffect s t) (hb : s.status.busy = true)
    (hengine : ¬EngineNext s) (hreset : ¬ResetNext s) : CommandKept s t := by
  cases e with
  | complete _ hn => exact absurd hn hengine
  | reset hn => exact absurd hn hreset
  | accept _ _ hidle => exact absurd hb (by simp [hidle])
  | _ => exact ⟨hb, rfl, rfl, rfl, rfl, rfl⟩

/-- Any number of host transactions leaves the command in progress. -/
theorem run_txnInputs {s : State} {txns : List (Header × Word)} {tail : List Input} (hb : s.status.busy = true)
    (hinputs : s.inputs = txnInputs txns ++ tail) :
    ∃ u, Host.Core.run core txns.length s = .next u ∧ CommandKept s u ∧ u.inputs = tail := by
  induction txns generalizing s with
  | nil => exact ⟨s, rfl, .refl hb, hinputs⟩
  | cons x rest ih =>
    have hhead : s.inputs = .txn x.1 x.2 :: (txnInputs rest ++ tail) := hinputs
    obtain ⟨t, ht⟩ := step_next s
    have hkept : CommandKept s t :=
      (step_effect ht).commandKept hb (by simp [EngineNext, hhead]) (by simp [ResetNext, hhead])
    have htail : t.inputs = txnInputs rest ++ tail := by rw [(step_effect ht).inputs, hhead, List.tail_cons]
    obtain ⟨u, hrun, hkept', hu⟩ := ih hkept.busy htail
    exact ⟨u, (run_of_step (M := core) ht _).trans hrun, hkept.trans hkept', hu⟩

theorem CommandKept.engineTurn_sameOutcome {s u : State} (h : CommandKept s u) (hb : s.status.busy = true) :
    ∃ t v, engineTurn u = .next t ∧ engineTurn s = .next v ∧ SameOutcome t v :=
  Proofs.engineTurn_sameOutcome h.busy hb h.lcmd h.support fun _ _ _ => by
    simp only [operandA, operandB, h.la, h.lb, and_self]

/-- A completion keeps the command word and takes no input. -/
theorem engineTurn_keeps_cmd_inputs {s t : State} (hb : s.status.busy = true) (h : engineTurn s = .next t) :
    t.cmd = s.cmd ∧ t.inputs = s.inputs := by
  obtain ⟨r, st, rfl, _⟩ := (engineTurn_completion hb h).finish
  exact ⟨rfl, rfl⟩

theorem CommandKept.setInputs {s u : State} (h : CommandKept s u) (rest : List Input) :
    CommandKept (s.setInputs rest) (u.setInputs rest) := ⟨h.busy, h.cmd, h.lcmd, h.la, h.lb, h.support⟩

/-- Settles O46: the transactions keep all that the engine's turn looks at. -/
theorem hostCannotDisturbCommand : Obligations.HostCannotDisturbCommand := by
  unfold Obligations.HostCannotDisturbCommand
  intro s txns rest hb hinputs
  obtain ⟨u, hrun, hkept, hu⟩ := run_txnInputs hb hinputs
  have hkept' := hkept.setInputs rest
  obtain ⟨t, v, ht, hv, hr, hstatus⟩ := hkept'.engineTurn_sameOutcome hb
  obtain ⟨htcmd, htinputs⟩ := engineTurn_keeps_cmd_inputs hkept'.busy ht
  obtain ⟨hvcmd, _⟩ := engineTurn_keeps_cmd_inputs (s := s.setInputs rest) hb hv
  have hstep : step u = .next t := (step_of_engine hu).trans ht
  exact ⟨t, v, run_succ (M := core) hrun hstep, hv, hr, hstatus, (htcmd.trans hkept.cmd).trans hvcmd.symm, htinputs⟩

/-- Inputs without a reset are host transactions up to the engine's first turn. -/
theorem eq_txnInputs_append {inputs : List Input} (h : .reset ∉ inputs) :
    ∃ txns tail, inputs = txnInputs txns ++ tail ∧ (tail = [] ∨ ∃ rest, tail = .engine :: rest) := by
  induction inputs with
  | nil => exact ⟨[], [], rfl, .inl rfl⟩
  | cons input rest ih =>
    cases input with
    | engine => exact ⟨[], _, rfl, .inr ⟨rest, rfl⟩⟩
    | reset => exact absurd List.mem_cons_self h
    | txn header data =>
      obtain ⟨txns, tail, rfl, htail⟩ := ih (fun hmem => h (List.mem_cons_of_mem _ hmem))
      exact ⟨(header, data) :: txns, tail, rfl, htail⟩

theorem step_completes {s : State} (hb : s.status.busy = true) (hn : EngineNext s) :
    ∃ t, step s = .next t ∧ t.status.busy = false ∧ t.status.done = true := by
  obtain ⟨t, ht⟩ := step_next s
  rcases hn with hinputs | ⟨rest, hinputs⟩
  · exact ⟨t, ht, engineTurn_completes hb ((step_of_no_inputs hinputs).symm.trans ht)⟩
  · exact ⟨t, ht, engineTurn_completes (s := s.setInputs rest) hb ((step_of_engine hinputs).symm.trans ht)⟩

/-- Settles O47: the command is kept up to the engine's first turn, and that turn completes it. -/
theorem everyAcceptedCommandCompletes : Obligations.EveryAcceptedCommandCompletes := by
  unfold Obligations.EveryAcceptedCommandCompletes
  intro s hb hreset
  obtain ⟨txns, tail, hinputs, htail⟩ := eq_txnInputs_append hreset
  obtain ⟨u, hrun, hkept, rfl⟩ := run_txnInputs hb hinputs
  obtain ⟨t, hstep, hbusy, hdone⟩ := step_completes hkept.busy htail
  have hlen : txns.length ≤ s.inputs.length := by simp [hinputs, txnInputs]
  exact ⟨_, u, t, hlen, hrun, hkept.busy, hkept.lcmd, hkept.la, hkept.lb, htail, hstep, hbusy, hdone⟩

/-! ### Two commands with no wait between them (R206) -/

/-- The header `0x28` is a write at CMD (R51, R80). -/
theorem step_of_cmdWrite {s : State} {v : Word} {rest : List Input} (h : s.inputs = .txn 0x28#6 v :: rest) :
    step s = .next ((s.setInputs rest).hostWrite 0x08#5 v) := by
  have hdecode : decodeTxn 0x28#6 v = .hostWrite 0x08#5 v := decodeTxn_write 0x08#5 v
  rw [step_of_txn h, hdecode, exec_hostWrite]

theorem step_cmdWrite_of_idle {s : State} {v : Word} {rest : List Input} (hb : s.status.busy = false)
    (h : s.inputs = .txn 0x28#6 v :: rest) : step s = .next ((s.setInputs rest).accept v) := by
  rw [step_of_cmdWrite h, hostWrite_cmd_of_idle (s := s.setInputs rest) hb]

theorem step_cmdWrite_of_busy {s : State} {v : Word} {rest : List Input} (hb : s.status.busy = true)
    (h : s.inputs = .txn 0x28#6 v :: rest) : step s = .next (s.setInputs rest).overrun := by
  rw [step_of_cmdWrite h, hostWrite_cmd_of_busy (s := s.setInputs rest) hb]

theorem run_three {M : Host.Core} {s t u x : M.State} (hs : M.step s = .next t) (ht : M.step t = .next u)
    (hu : M.step u = .next x) : M.run 3 s = .next x := by
  rw [run_of_step hs, run_of_step ht, run_of_step hu, Host.Core.run]

/-- The first completes before the second is written: the block is idle again, and accepts it. -/
theorem second_command_accepted {s : State} {v w : Word} (hb : s.status.busy = false)
    (hinputs : s.inputs = [.txn 0x28#6 v, .engine, .txn 0x28#6 w]) :
    ∃ u : State, Host.Core.run core 3 s = .next (u.accept w) := by
  have haccept := step_cmdWrite_of_idle hb hinputs
  obtain ⟨t, ht⟩ := step_next ((s.setInputs [.engine, .txn 0x28#6 w]).accept v)
  have hturn := (step_of_engine rfl).symm.trans ht
  have hidle : t.status.busy = false := (engineTurn_completes rfl hturn).1
  obtain ⟨_, hleft⟩ := engineTurn_keeps_cmd_inputs rfl hturn
  exact ⟨_, run_three (M := core) haccept ht (step_cmdWrite_of_idle hidle hleft)⟩

/-- The second is written before the first completes: it is refused, and the completion is the first's. -/
theorem second_command_refused {s : State} {v w : Word} (hb : s.status.busy = false)
    (hinputs : s.inputs = [.txn 0x28#6 v, .txn 0x28#6 w, .engine]) :
    ∃ t, Host.Core.run core 3 s = .next t ∧ Completion ((s.setInputs []).accept v).overrun t := by
  have haccept := step_cmdWrite_of_idle hb hinputs
  have hrefuse : step ((s.setInputs [.txn 0x28#6 w, .engine]).accept v) =
      .next ((s.setInputs [.engine]).accept v).overrun := step_cmdWrite_of_busy rfl rfl
  obtain ⟨t, ht⟩ := step_next ((s.setInputs [.engine]).accept v).overrun
  have hturn := (step_of_engine rfl).symm.trans ht
  exact ⟨t, run_three (M := core) haccept hrefuse ht, engineTurn_completion rfl hturn⟩

/-- Settles O48: the block is idle after the first completion and busy before it. -/
theorem backToBackCommands : Obligations.BackToBackCommands := by
  unfold Obligations.BackToBackCommands
  intro s v w hb
  constructor
  · intro hinputs
    obtain ⟨u, hrun⟩ := second_command_accepted hb hinputs
    exact ⟨_, hrun, rfl, rfl, rfl⟩
  · intro hinputs
    obtain ⟨t, hrun, hcompletion⟩ := second_command_refused hb hinputs
    have hdone := hcompletion.done
    obtain ⟨r, st, rfl, hbusy, hovr⟩ := hcompletion.finish
    exact ⟨_, hrun, rfl, rfl, hbusy, hdone, hovr⟩

end Sys2Proof.Proofs
end

section
/-! PROOFS. The statements of `41_arith.md`: what a command that computes a value leaves in R and STATUS, and the value
and the headroom limb of the five arithmetic commands. -/

namespace Sys2Proof.Proofs

open Sys2Proof.Machine Sys2Proof.Laws

/-! ### The value in the result file (R32, R100) -/

theorem resultValue_eq_mod (t : State) (k : Nat) : resultValue t k = reconstruct t.r.toList % limbBase ^ k :=
  reconstruct_take t.r.toList k

/-- The value of one limb fewer is what remains below that limb. -/
theorem resultValue_eq_mod_succ (t : State) (k : Nat) : resultValue t k = resultValue t (k + 1) % limbBase ^ k := by
  rw [resultValue_eq_mod, resultValue_eq_mod, Nat.mod_mod_of_dvd _ (Nat.pow_dvd_pow limbBase k.le_succ)]

/-- A limb of the result file is the top digit of the value up to and with it. -/
theorem resultLimb_toNat (t : State) (j : Fin 8) :
    t.r[j].toNat = resultValue t (j.val + 1) / limbBase ^ j.val := by
  have hlimb : t.r[j] = t.r.toList.getD j 0 := by simp
  rw [hlimb, reconstruct_limb, resultValue_eq_mod, Nat.pow_succ, Nat.mod_mul_right_div_self]

theorem resultValue_succ_of_zero {t : State} {j : Fin 8} (h : t.r[j] = 0) :
    resultValue t (j.val + 1) = resultValue t j.val := by
  have hdigit : resultValue t (j.val + 1) / limbBase ^ j.val = 0 := by
    rw [← resultLimb_toNat, h]
    rfl
  rw [resultValue_eq_mod_succ t j, Nat.mod_eq_of_lt]
  exact (Nat.div_eq_zero_iff_lt (limbBase_pow_pos _)).1 hdigit

/-- Zero limbs add nothing to a value. -/
theorem resultValue_of_zeroFrom {t : State} {k n : Nat} (h : ZeroFrom t k) (hk : k ≤ n) (hn : n ≤ 8) :
    resultValue t n = resultValue t k := by
  induction n, hk using Nat.le_induction with
  | base => rfl
  | succ n hkn ih => exact (resultValue_succ_of_zero (h ⟨n, hn⟩ hkn)).trans (ih (Nat.le_of_succ_le hn))

/-! ### The completion of a command that has a value, and of one that has an error (R107, R109, R186) -/

section
variable {op : Op} {w : Width} {s : State}

theorem rlc_le_eight (op : Op) (w : Width) : rlc op w ≤ 8 := by
  rcases rlc_values op w with h | h | h | h <;> omega

/-- The value always fits, so the command completes with its limbs (R112). -/
theorem completeState_of_value {v : Nat} (hs : supported s.support op w = true)
    (hv : opFn op w (operandA w s) (operandB w s) = .ok v) :
    ∃ limbs : List Word, limbs.length = rlc op w ∧ reconstruct limbs = v ∧
      completeState op w s = s.successComplete limbs (rlc op w) := by
  have hfits := opFn_lt (operandA_lt w s) (operandB_lt w s) hv
  obtain ⟨limbs, hlimbs, hlen, hvalue⟩ := decompose_of_lt hfits
  exact ⟨limbs, hlen, hvalue, by simp [completeState, computeResult, hs, hv, hlimbs]⟩

theorem command_succeedsWith {v : Nat} {p : State → Prop} (hs : supported s.support op w = true)
    (hv : opFn op w (operandA w s) (operandB w s) = .ok v) (hp : ∀ t, resultValue t (rlc op w) = v → p t) :
    SucceedsWith (commandInstr op w) s (rlc op w) v p := by
  obtain ⟨limbs, hlen, hvalue, hstate⟩ := completeState_of_value hs hv
  have hresult : resultValue (s.successComplete limbs (rlc op w)) (rlc op w) = v := by
    have htake := resultFile_take (l := limbs) (hlen ▸ rlc_le_eight op w)
    rw [hlen] at htake
    exact (congrArg reconstruct htake).trans hvalue
  exact ⟨_, (exec_command op w s).trans (congrArg _ hstate), hresult, fun _ hj => resultFile_above (hlen.trans_le hj),
    rfl, keepsAllButResult_finish .., hp _ hresult⟩

theorem command_succeeds {v : Nat} (hs : supported s.support op w = true)
    (hv : opFn op w (operandA w s) (operandB w s) = .ok v) : Succeeds (commandInstr op w) s (rlc op w) v :=
  command_succeedsWith hs hv fun _ _ => trivial

theorem command_failsWith {c : ErrorCode} (h : computeResult op w s = .error c) :
    FailsWith (commandInstr op w) s (errorCode c) := by
  have hstate : completeState op w s = s.errorComplete c := by simp [completeState, h]
  refine ⟨_, (exec_command op w s).trans (congrArg _ hstate), fun j _ => ?_, rfl, keepsAllButResult_finish ..⟩
  exact Vector.getElem_replicate _

/-- An unsupported command completes with INVALID_OP (R181). -/
theorem command_fails_unsupported (hs : supported s.support op w = false) : FailsWith (commandInstr op w) s 1 :=
  command_failsWith (c := .invalidOp) (by simp [computeResult, hs])

theorem computeResult_congr_opFn {u : State} (hsupport : s.support = u.support)
    (h : opFn op w (operandA w s) (operandB w s) = opFn op w (operandA w u) (operandB w u)) :
    computeResult op w s = computeResult op w u := by
  unfold computeResult
  rw [hsupport, h]

/-- In two states with one STATUS, a command that computes the same leaves the same R and the same STATUS. -/
theorem exec_same_result {u : State} (hstatus : s.status = u.status) (h : computeResult op w s = computeResult op w u) :
    ∃ t v, exec (commandInstr op w) s = .next t ∧ exec (commandInstr op w) u = .next v ∧ t.r = v.r ∧
      t.status = v.status := by
  refine ⟨_, _, exec_command op w s, exec_command op w u, ?_⟩
  unfold completeState
  rw [h]
  cases computeResult op w u with
  | ok limbs => exact ⟨rfl, congrArg (fun st : Status => st.succeeded (rlc op w)) hstatus⟩
  | error c => exact ⟨rfl, congrArg (fun st : Status => st.failed c) hstatus⟩

end

/-! ### The headroom limb R[N] (R110, R130, R131) -/

theorem limbCount_lt_eight (w : Width) : limbCount w < 8 := by cases w <;> decide

/-- R[N], the limb above the width's operands. -/
def headroomLimb (w : Width) (t : State) : Word := t.r[limbCount w]'(limbCount_lt_eight w)

section
variable {w : Width} {t : State}

theorem headroomLimb_toNat (w : Width) (t : State) :
    (headroomLimb w t).toNat = resultValue t (limbCount w + 1) / limbBase ^ limbCount w :=
  resultLimb_toNat t ⟨limbCount w, limbCount_lt_eight w⟩

theorem headroomLimb_eq_zero (h : resultValue t (limbCount w + 1) < limbBase ^ limbCount w) : headroomLimb w t = 0 :=
  BitVec.eq_of_toNat_eq ((headroomLimb_toNat w t).trans (Nat.div_eq_of_lt h))

theorem headroomLimb_eq_one_iff (h : resultValue t (limbCount w + 1) < 2 * limbBase ^ limbCount w) :
    headroomLimb w t = 1 ↔ limbBase ^ limbCount w ≤ resultValue t (limbCount w + 1) := by
  have hquot : headroomLimb w t = 1 ↔ resultValue t (limbCount w + 1) / limbBase ^ limbCount w = 1 := by
    rw [← headroomLimb_toNat, ← BitVec.toNat_inj]
    rfl
  rw [hquot, Nat.div_eq_iff (limbBase_pow_pos _)]
  omega

/-- With the headroom limb 1, the limbs below it hold the rest of the value. -/
theorem resultValue_below_headroom (h : resultValue t (limbCount w + 1) < 2 * limbBase ^ limbCount w)
    (hle : limbBase ^ limbCount w ≤ resultValue t (limbCount w + 1)) :
    resultValue t (limbCount w) = resultValue t (limbCount w + 1) - limbBase ^ limbCount w := by
  rw [resultValue_eq_mod_succ, Nat.mod_eq_sub_mod hle, Nat.mod_eq_of_lt (by omega)]

end

/-! ### add, sub, mul, div and mod at either width (R130 to R134) -/

section
variable {w : Width} {s : State}

theorem add_succeeds (hs : supported s.support .add w = true) :
    SucceedsWith (commandInstr .add w) s (limbCount w + 1) (operandA w s + operandB w s) (fun t =>
      (headroomLimb w t = 1 ↔ limbBase ^ limbCount w ≤ operandA w s + operandB w s) ∧
      (limbBase ^ limbCount w ≤ operandA w s + operandB w s →
        resultValue t (limbCount w) = operandA w s + operandB w s - limbBase ^ limbCount w)) := by
  refine command_succeedsWith hs rfl fun t hvalue => ?_
  have hvalue : resultValue t (limbCount w + 1) = operandA w s + operandB w s := hvalue
  have hlt : resultValue t (limbCount w + 1) < 2 * limbBase ^ limbCount w := by
    have ha := operandA_lt w s
    have hb := operandB_lt w s
    omega
  rw [← hvalue]
  exact ⟨headroomLimb_eq_one_iff hlt, resultValue_below_headroom hlt⟩

/-- The sentinel is above every difference. -/
theorem bound_le_subValue_iff {a : Nat} (ha : a < limbBase ^ limbCount w) (b : Nat) :
    limbBase ^ limbCount w ≤ subValue w a b ↔ a < b := by
  unfold subValue
  split <;> omega

theorem sub_succeeds (hs : supported s.support .sub w = true) :
    SucceedsWith (commandInstr .sub w) s (limbCount w + 1) (subValue w (operandA w s) (operandB w s)) (fun t =>
      (headroomLimb w t = 1 ↔ operandA w s < operandB w s) ∧
      (operandA w s < operandB w s → resultValue t (limbCount w) = 0)) := by
  refine command_succeedsWith hs rfl fun t hvalue => ?_
  have hvalue : resultValue t (limbCount w + 1) = subValue w (operandA w s) (operandB w s) := hvalue
  have hle : resultValue t (limbCount w + 1) ≤ limbBase ^ limbCount w := hvalue ▸ subValue_le (operandA_lt w s) _
  have hlt : resultValue t (limbCount w + 1) < 2 * limbBase ^ limbCount w := by
    have := limbBase_pow_pos (limbCount w)
    omega
  rw [← bound_le_subValue_iff (operandA_lt w s), ← hvalue]
  refine ⟨headroomLimb_eq_one_iff hlt, fun hge => ?_⟩
  rw [resultValue_below_headroom hlt hge, Nat.sub_eq_zero_of_le hle]

theorem div_succeeds (hs : supported s.support .div w = true) :
    SucceedsWith (commandInstr .div w) s (limbCount w + 1) (divValue (operandA w s) (operandB w s))
      (fun t => headroomLimb w t = 0) := by
  refine command_succeedsWith hs rfl fun t hvalue => headroomLimb_eq_zero ?_
  exact hvalue.trans_lt ((Nat.div_le_self ..).trans_lt (operandA_lt w s))

theorem mod_succeeds (hs : supported s.support .mod w = true) :
    SucceedsWith (commandInstr .mod w) s (limbCount w + 1) (modValue (operandA w s) (operandB w s))
      (fun t => headroomLimb w t = 0) := by
  refine command_succeedsWith hs rfl fun t hvalue => headroomLimb_eq_zero ?_
  exact hvalue.trans_lt ((Nat.mod_le ..).trans_lt (operandA_lt w s))

end

/-- Settles O26: two operands sum to less than twice their bound, so the headroom limb is the carry. -/
theorem addResult : Obligations.AddResult := by
  unfold Obligations.AddResult
  exact ⟨decode_encode .add512, decode_encode .add1024, fun _ =>
    ⟨add_succeeds (w := .w512), command_fails_unsupported, add_succeeds (w := .w1024), command_fails_unsupported⟩⟩

/-- Settles O27: only the sentinel reaches the bound of the operands. -/
theorem subResult : Obligations.SubResult := by
  unfold Obligations.SubResult
  exact ⟨decode_encode .sub512, decode_encode .sub1024, fun _ =>
    ⟨sub_succeeds (w := .w512), command_fails_unsupported, sub_succeeds (w := .w1024), command_fails_unsupported⟩⟩

/-- Settles O28: the product is the command's value, and it fits 2N limbs. -/
theorem mulResult : Obligations.MulResult := by
  unfold Obligations.MulResult
  exact ⟨decode_encode .mul512, decode_encode .mul1024, fun _ =>
    ⟨fun hs => command_succeeds hs rfl, command_fails_unsupported, fun hs => command_succeeds hs rfl,
      command_fails_unsupported⟩⟩

/-- Settles O29: a quotient is at most the left operand, so the headroom limb is 0. -/
theorem divResult : Obligations.DivResult := by
  unfold Obligations.DivResult
  exact ⟨decode_encode .div512, decode_encode .div1024, fun _ =>
    ⟨div_succeeds (w := .w512), command_fails_unsupported, div_succeeds (w := .w1024), command_fails_unsupported⟩⟩

/-- Settles O30: a remainder is at most the left operand, so the headroom limb is 0. -/
theorem modResult : Obligations.ModResult := by
  unfold Obligations.ModResult
  exact ⟨decode_encode .mod512, decode_encode .mod1024, fun _ =>
    ⟨mod_succeeds (w := .w512), command_fails_unsupported, mod_succeeds (w := .w1024), command_fails_unsupported⟩⟩

/-! ### Commutativity, the zero divisor and the division identity (R136, R137) -/

theorem opFn_comm {op : Op} (hop : op = .add ∨ op = .mul) (w : Width) (a b : Nat) : opFn op w a b = opFn op w b a := by
  rcases hop with rfl | rfl
  · exact congrArg Except.ok (Nat.add_comm a b)
  · exact congrArg Except.ok (Nat.mul_comm a b)

theorem opFn_zero_right {op : Op} (hop : op = .div ∨ op = .mod) (w : Width) (a : Nat) :
    opFn op w a 0 = opFn op w a 1 := by
  rcases hop with rfl | rfl
  · rfl
  · rfl

/-- Settles O38: the exchanged, or substituted, operands give the same value, and so the same result and STATUS. -/
theorem commutativityAndZeroDivisor : Obligations.CommutativityAndZeroDivisor := by
  unfold Obligations.CommutativityAndZeroDivisor
  refine fun w s => ⟨fun op hop => exec_same_result rfl ?_, fun op hop => exec_same_result rfl ?_⟩
  · exact computeResult_congr_opFn rfl (opFn_comm hop w _ _)
  · have hzero : operandB w { s with lb := #v[0, 0, 0, 0] } = 0 := by cases w <;> rfl
    have hone : operandB w { s with lb := #v[1, 0, 0, 0] } = 1 := by cases w <;> rfl
    refine computeResult_congr_opFn rfl ?_
    rw [hzero, hone]
    exact opFn_zero_right hop w _

/-- The whole of R holds the value of a command that succeeds. -/
theorem command_resultValue {op : Op} {w : Width} {s : State} {v : Nat} (hs : supported s.support op w = true)
    (hv : opFn op w (operandA w s) (operandB w s) = .ok v) :
    ∃ t, exec (commandInstr op w) s = .next t ∧ resultValue t 8 = v := by
  obtain ⟨t, hexec, hvalue, hzero, _⟩ := command_succeeds hs hv
  exact ⟨t, hexec, (resultValue_of_zeroFrom hzero (rlc_le_eight op w) le_rfl).trans hvalue⟩

theorem divisorOf_pos (b : Nat) : 0 < divisorOf b := by
  unfold divisorOf
  split <;> omega

/-- Settles O39: the two results are the quotient and the remainder by the one divisor, which is not 0. -/
theorem divisionIdentity : Obligations.DivisionIdentity := by
  unfold Obligations.DivisionIdentity
  intro w s hdiv hmod
  obtain ⟨t, ht, hquotient⟩ := command_resultValue hdiv rfl
  obtain ⟨u, hu, hremainder⟩ := command_resultValue hmod rfl
  refine ⟨t, u, ht, hu, ?_⟩
  rw [hquotient, hremainder]
  exact ⟨(Nat.div_add_mod' _ _).symm, Nat.mod_lt _ (divisorOf_pos _)⟩

end Sys2Proof.Proofs
end

section
/-! PROOFS. The statements of `42_compare.md`: each comparison computes a value for every pair of operands, so a command
completes with it where it is supported, and the four values agree with each other. -/

namespace Sys2Proof.Proofs

open Sys2Proof.Machine Sys2Proof.Laws

/-! ### lt, gt, eq and ge at both widths (R150 to R153) -/

/-- At each width, a command whose operation has a value for all operands completes with it, or with INVALID_OP where it
is unsupported. -/
theorem both_widths_succeed_or_unsupported {op : Op} {f : Nat → Nat → Nat} (hf : ∀ w a b, opFn op w a b = .ok (f a b))
    (s : State) :
    (supported s.support op .w512 = true →
      Succeeds (commandInstr op .w512) s (rlc op .w512) (f (operandA .w512 s) (operandB .w512 s))) ∧
    (supported s.support op .w512 = false → FailsWith (commandInstr op .w512) s 1) ∧
    (supported s.support op .w1024 = true →
      Succeeds (commandInstr op .w1024) s (rlc op .w1024) (f (operandA .w1024 s) (operandB .w1024 s))) ∧
    (supported s.support op .w1024 = false → FailsWith (commandInstr op .w1024) s 1) :=
  ⟨fun hs => command_succeeds hs (hf ..), command_fails_unsupported, fun hs => command_succeeds hs (hf ..),
    command_fails_unsupported⟩

/-- Settles O31: the value of lt is 1 or 0 by `a < b`, and is no error. -/
theorem ltResult : Obligations.LtResult := by
  unfold Obligations.LtResult
  exact ⟨decode_encode .lt512, decode_encode .lt1024,
    both_widths_succeed_or_unsupported (op := .lt) (f := ltValue) fun _ _ _ => rfl⟩

/-- Settles O32: the value of gt is 1 or 0 by `b < a`, and is no error. -/
theorem gtResult : Obligations.GtResult := by
  unfold Obligations.GtResult
  exact ⟨decode_encode .gt512, decode_encode .gt1024,
    both_widths_succeed_or_unsupported (op := .gt) (f := gtValue) fun _ _ _ => rfl⟩

/-- Settles O33: the value of eq is 1 or 0 by `a = b`, and is no error. -/
theorem eqResult : Obligations.EqResult := by
  unfold Obligations.EqResult
  exact ⟨decode_encode .eq512, decode_encode .eq1024,
    both_widths_succeed_or_unsupported (op := .eq) (f := eqValue) fun _ _ _ => rfl⟩

/-- Settles O34: the value of ge is 1 or 0 by `b ≤ a`, and is no error. -/
theorem geResult : Obligations.GeResult := by
  unfold Obligations.GeResult
  exact ⟨decode_encode .ge512, decode_encode .ge1024,
    both_widths_succeed_or_unsupported (op := .ge) (f := geValue) fun _ _ _ => rfl⟩

/-! ### The four comparisons together (R154) -/

/-- Trichotomy on the values. -/
theorem ltValue_add_eqValue_add_gtValue (a b : Nat) : ltValue a b + eqValue a b + gtValue a b = 1 := by
  unfold ltValue eqValue gtValue
  rcases Nat.lt_trichotomy a b with hlt | rfl | hgt
  · simp [hlt, hlt.ne, hlt.le]
  · simp
  · simp [hgt, hgt.ne', hgt.le]

theorem gtValue_eq_one_iff (a b : Nat) : gtValue a b = 1 ↔ b < a := by simp [gtValue]

theorem eqValue_eq_one_iff (a b : Nat) : eqValue a b = 1 ↔ a = b := by simp [eqValue]

theorem geValue_eq_one_iff (a b : Nat) : geValue a b = 1 ↔ b ≤ a := by simp [geValue]

theorem geValue_eq_one_iff_gt_or_eq (a b : Nat) : geValue a b = 1 ↔ gtValue a b = 1 ∨ eqValue a b = 1 := by
  rw [geValue_eq_one_iff, gtValue_eq_one_iff, eqValue_eq_one_iff, le_iff_lt_or_eq, eq_comm (a := b)]

/-- Settles O40: the four results are the four values of the same operands, of which exactly one of the first three is 1. -/
theorem comparisonConsistency : Obligations.ComparisonConsistency := by
  unfold Obligations.ComparisonConsistency
  intro w s hs
  obtain ⟨tl, hexecLt, hlt⟩ := command_resultValue (hs .lt (by simp)) rfl
  obtain ⟨te, hexecEq, heq⟩ := command_resultValue (hs .eq (by simp)) rfl
  obtain ⟨tg, hexecGt, hgt⟩ := command_resultValue (hs .gt (by simp)) rfl
  obtain ⟨tge, hexecGe, hge⟩ := command_resultValue (hs .ge (by simp)) rfl
  refine ⟨tl, te, tg, tge, hexecLt, hexecEq, hexecGt, hexecGe, ?_⟩
  rw [hlt, heq, hgt, hge]
  exact ⟨ltValue_add_eqValue_add_gtValue _ _, geValue_eq_one_iff_gt_or_eq _ _⟩

end Sys2Proof.Proofs
end

section
/-! PROOFS. The statements of `43_special.md`: the value of sqrt, log2 and modinv, how many limbs it can reach, and the
operands without one. -/

namespace Sys2Proof.Proofs

open Sys2Proof.Machine Sys2Proof.Laws

/-! ### A value of fewer limbs leaves the limbs above them 0 -/

/-- A limb at or above the value's own limb count is a quotient of a number below its divisor. -/
theorem zeroFrom_of_resultValue_lt {t : State} {k m : Nat} (hzero : ZeroFrom t k)
    (hlt : resultValue t k < limbBase ^ m) : ZeroFrom t m := by
  intro j hj
  rcases Nat.lt_or_ge j.val k with hjk | hkj
  · have hpart : resultValue t (j.val + 1) ≤ resultValue t k := by
      rw [resultValue_eq_mod, resultValue_eq_mod,
        ← Nat.mod_mod_of_dvd (reconstruct t.r.toList) (Nat.pow_dvd_pow limbBase hjk)]
      exact Nat.mod_le _ _
    have hbound : resultValue t (j.val + 1) < limbBase ^ j.val :=
      calc resultValue t (j.val + 1) ≤ resultValue t k := hpart
        _ < limbBase ^ m := hlt
        _ ≤ limbBase ^ j.val := Nat.pow_le_pow_right limbBase_pos hj
    exact BitVec.eq_of_toNat_eq ((resultLimb_toNat t j).trans (Nat.div_eq_of_lt hbound))
  · exact hzero j hkj

section
variable {w : Width} {s : State}

theorem command_succeeds_zeroFrom {op : Op} {v m : Nat} (hs : supported s.support op w = true)
    (hv : opFn op w (operandA w s) (operandB w s) = .ok v) (hlt : v < limbBase ^ m) :
    SucceedsWith (commandInstr op w) s (rlc op w) v (fun t => ZeroFrom t m) := by
  obtain ⟨t, hexec, hvalue, hzero, hstatus, hkeeps, _⟩ := command_succeeds hs hv
  exact ⟨t, hexec, hvalue, hzero, hstatus, hkeeps, zeroFrom_of_resultValue_lt hzero (hvalue.trans_lt hlt)⟩

/-- A supported command whose operands have no value completes with DOMAIN (R182). -/
theorem command_fails_domain {op : Op} (hs : supported s.support op w = true)
    (hv : opFn op w (operandA w s) (operandB w s) = .error .domain) : FailsWith (commandInstr op w) s 2 :=
  command_failsWith (c := .domain) (by simp [computeResult, hs, hv])

/-! ### sqrt (R160) -/

/-- The root of a number of 2n limbs has n limbs. -/
theorem isqrt_lt_limbBase_pow {a n : Nat} (ha : a < limbBase ^ (n + n)) : isqrt a < limbBase ^ n := by
  rw [isqrt_eq_sqrt, Nat.sqrt_lt, ← Nat.pow_add]
  exact ha

theorem sqrt_succeeds {n : Nat} (hn : limbCount w = n + n) (hs : supported s.support .sqrt w = true) :
    ∃ r, SucceedsWith (commandInstr .sqrt w) s (limbCount w + 1) r (fun t => ZeroFrom t n) ∧
      r * r ≤ operandA w s ∧ operandA w s < (r + 1) * (r + 1) :=
  ⟨isqrt (operandA w s), command_succeeds_zeroFrom hs rfl (isqrt_lt_limbBase_pow (hn ▸ operandA_lt w s)),
    eq_isqrt_iff.1 rfl⟩

/-- Settles O35: the command's value is the integer root, which has half the operand's limbs. -/
theorem sqrtResult : Obligations.SqrtResult := by
  unfold Obligations.SqrtResult
  exact ⟨decode_encode .sqrt512, decode_encode .sqrt1024, fun _ =>
    ⟨sqrt_succeeds (w := .w512) (n := 1) rfl, command_fails_unsupported, sqrt_succeeds (w := .w1024) (n := 2) rfl,
      command_fails_unsupported⟩⟩

/-! ### log2 (R161) -/

theorem log2Value_of_ne_zero {a : Nat} (ha : a ≠ 0) : log2Value a = .ok (Nat.log2 a) := by
  rw [log2Value, if_neg ha, bitlen_of_pos (Nat.pos_of_ne_zero ha), Nat.add_sub_cancel]

/-- The logarithm of an operand is below its number of bits, at most 1024, so one limb holds it. -/
theorem log2_operandA_lt (h : operandA w s ≠ 0) : Nat.log2 (operandA w s) < limbBase ^ 1 := by
  have hbits : Nat.log2 (operandA w s) < 256 * limbCount w := by
    rw [Nat.log2_lt h, Nat.pow_mul]
    exact operandA_lt w s
  calc Nat.log2 (operandA w s) < 256 * limbCount w := hbits
    _ ≤ 256 * 4 := Nat.mul_le_mul_left 256 (limbCount_le w)
    _ ≤ limbBase ^ 1 := by decide

theorem log2_succeeds (hs : supported s.support .log2 w = true) (h : operandA w s ≠ 0) :
    ∃ r, SucceedsWith (commandInstr .log2 w) s (limbCount w + 1) r (fun t => ZeroFrom t 1) ∧
      2 ^ r ≤ operandA w s ∧ operandA w s < 2 ^ (r + 1) :=
  ⟨Nat.log2 (operandA w s), command_succeeds_zeroFrom hs (log2Value_of_ne_zero h) (log2_operandA_lt h),
    (Nat.log2_eq_iff h).1 rfl⟩

theorem log2_fails_domain (hs : supported s.support .log2 w = true) (h : operandA w s = 0) :
    FailsWith (commandInstr .log2 w) s 2 :=
  command_fails_domain hs (if_pos h)

/-- Settles O36: the command's value is the bit length less 1, which fits one limb, and 0 has none. -/
theorem log2Result : Obligations.Log2Result := by
  unfold Obligations.Log2Result
  exact ⟨decode_encode .log2512, decode_encode .log21024, fun _ =>
    ⟨log2_succeeds (w := .w512), log2_fails_domain, command_fails_unsupported,
      log2_succeeds (w := .w1024), log2_fails_domain, command_fails_unsupported⟩⟩

/-! ### modinv (R162) -/

/-- The limb base is even, so the parity of an operand is that of its limb 0. -/
theorem operandB_mod_two (w : Width) (s : State) : operandB w s % 2 = s.lb[0].toNat % 2 := by
  have hlimb : (s.lb.toList.take (limbCount w)).getD 0 0 = s.lb[0] := by cases w <;> simp [limbCount]
  have hdigit := reconstruct_limb (s.lb.toList.take (limbCount w)) 0
  have heven : 2 ∣ limbBase := dvd_pow_self 2 (by decide)
  rw [hlimb, Nat.pow_zero, Nat.div_one] at hdigit
  rw [hdigit, Nat.mod_mod_of_dvd _ heven, operandB]

theorem operandB_odd_iff (w : Width) (s : State) : operandB w s % 2 = 1 ↔ s.lb[0].getLsbD 0 = true := by
  rw [operandB_mod_two, BitVec.getLsbD, Nat.testBit_zero, decide_eq_true_iff]

theorem modinv_succeeds (hs : supported s.support .modinv w = true) (h : s.lb[0].getLsbD 0 = true) :
    ∃ r, SucceedsWith (commandInstr .modinv w) s (limbCount w + 1) r (fun t => ZeroFrom t 2) ∧ r < modinvModulus ∧
      operandB w s * r % modinvModulus = 1 ∧
      ∀ q, q < modinvModulus → operandB w s * q % modinvModulus = 1 → q = r := by
  have hodd : operandB w s % 2 = 1 := (operandB_odd_iff w s).2 h
  have hvalue : modinvValue (operandB w s) = .ok (invMod (operandB w s)) := if_neg (by omega)
  have hlt : invMod (operandB w s) < limbBase ^ 2 := (invMod_lt _).trans_eq (Nat.pow_two limbBase).symm
  exact ⟨invMod (operandB w s), command_succeeds_zeroFrom hs hvalue hlt, invMod_lt _, mul_invMod hodd,
    fun q hq hinv => (eq_invMod_iff hodd).2 ⟨hq, hinv⟩⟩

theorem modinv_fails_domain (hs : supported s.support .modinv w = true) (h : s.lb[0].getLsbD 0 = false) :
    FailsWith (commandInstr .modinv w) s 2 := by
  have hnot : ¬ operandB w s % 2 = 1 := fun hodd =>
    Bool.false_ne_true (h.symm.trans ((operandB_odd_iff w s).1 hodd))
  exact command_fails_domain hs (if_pos (by omega))

end

/-- Settles O37: the command's value is the model's inverse, which is the only one below the modulus, and an operand has
none exactly when its lowest bit is 0. -/
theorem modinvResult : Obligations.ModinvResult := by
  unfold Obligations.ModinvResult
  exact ⟨decode_encode .modinv512, decode_encode .modinv1024, fun _ =>
    ⟨modinv_succeeds (w := .w512), modinv_fails_domain, command_fails_unsupported,
      modinv_succeeds (w := .w1024), modinv_fails_domain, command_fails_unsupported⟩⟩

end Sys2Proof.Proofs
end

section
/-! PROOFS. The statements of `60_exceptions.md`: the error completion, which words and operands end in INVALID_OP and
in DOMAIN, and that no step faults or is refused. -/

namespace Sys2Proof.Proofs

open Sys2Proof.Machine Sys2Proof.Laws

/-! ### No step is stuck (R106, R190) -/

/-- Settles O9: each kind of step answers a next state. -/
theorem everyStepHasNextState : Obligations.EveryStepHasNextState := by
  unfold Obligations.EveryStepHasNextState
  exact step_next

/-! ### The error completion (R180, R186) -/

theorem zeroFrom_errorComplete (s : State) (c : ErrorCode) (k : Nat) : ZeroFrom (s.errorComplete c) k :=
  fun _ _ => Vector.getElem_replicate _

theorem errorComplete_status (s : State) (c : ErrorCode) :
    (s.errorComplete c).status = failureStatus s (errorCode c) := rfl

/-- Settles O43, one code at a time. -/
theorem errorCompletionClearsResult : Obligations.ErrorCompletionClearsResult := by
  unfold Obligations.ErrorCompletionClearsResult
  intro s c
  cases c with
  | invalidOp => rfl
  | domain => rfl
  | headroom => rfl

/-! ### The code that a completion records (R107, R180) -/

theorem errorCode_ne_zero (c : ErrorCode) : errorCode c ≠ 0 := by cases c <;> decide

theorem errorCode_inj {c d : ErrorCode} : errorCode c = errorCode d ↔ c = d := by
  cases c <;> cases d <;> decide

/-- A completion that records an error's code is that error's completion: a success records 0, and no two errors have
one code. -/
theorem Completion.eq_errorComplete {s t : State} {c : ErrorCode} (h : Completion s t)
    (hcode : t.status.ecode = errorCode c) : t = s.errorComplete c := by
  cases h with
  | success limbs k => exact absurd hcode.symm (errorCode_ne_zero c)
  | error d => rw [errorCode_inj.1 hcode]

theorem Completion.keepsAllButResult {s t : State} (h : Completion s t) : KeepsAllButResult s t := by
  obtain ⟨r, st, rfl, _⟩ := h.finish
  exact keepsAllButResult_finish s r st

section
variable {op : Op} {w : Width} {s : State}

theorem completeState_ecode_iff {c : ErrorCode} :
    (completeState op w s).status.ecode = errorCode c ↔ computeResult op w s = .error c := by
  unfold completeState
  cases computeResult op w s with
  | ok limbs => exact iff_of_false (errorCode_ne_zero c).symm nofun
  | error d => exact errorCode_inj.trans ⟨congrArg _, Except.error.inj⟩

/-- The two sources of an error: SUPPORTED, which is looked at first, and the operation's function (R107, R185). A value
that the function has always fits (R112). -/
theorem computeResult_error_iff {c : ErrorCode} :
    computeResult op w s = .error c ↔
      (supported s.support op w = false ∧ c = .invalidOp) ∨
        (supported s.support op w = true ∧ opFn op w (operandA w s) (operandB w s) = .error c) := by
  unfold computeResult
  cases supported s.support op w with
  | false => simp [eq_comm]
  | true =>
    cases hvalue : opFn op w (operandA w s) (operandB w s) with
    | ok v =>
      obtain ⟨limbs, hlimbs, _⟩ := decompose_of_lt (opFn_lt (operandA_lt w s) (operandB_lt w s) hvalue)
      simp [hlimbs]
    | error d => simp

/-! ### DOMAIN (R182) -/

theorem opFn_domain_iff {a b : Nat} :
    opFn op w a b = .error .domain ↔ (op = .modinv ∧ b % 2 = 0) ∨ (op = .log2 ∧ a = 0) := by
  cases op with
  | log2 => simp [opFn, log2Value]
  | modinv => simp [opFn, modinvValue]
  | _ => simp [opFn]

theorem completeState_domain_iff (hs : supported s.support op w = true) :
    (completeState op w s).status.ecode = 2 ↔
      (op = .modinv ∧ operandB w s % 2 = 0) ∨ (op = .log2 ∧ operandA w s = 0) :=
  calc (completeState op w s).status.ecode = errorCode .domain
      ↔ computeResult op w s = .error .domain := completeState_ecode_iff
    _ ↔ opFn op w (operandA w s) (operandB w s) = .error .domain := by simp [computeResult_error_iff, hs]
    _ ↔ _ := opFn_domain_iff

end

/-- Settles O44: only log2 and modinv have operands without a value. -/
theorem domainErrorExactlyTwoCases : Obligations.DomainErrorExactlyTwoCases := by
  unfold Obligations.DomainErrorExactlyTwoCases
  exact fun op w s hs => ⟨_, exec_command op w s, completeState_domain_iff hs⟩

/-! ### INVALID_OP (R181) -/

/-- The operation's function reports DOMAIN only, so INVALID_OP comes from SUPPORTED. -/
theorem completeState_invalidOp_iff {op : Op} {w : Width} {s : State} :
    (completeState op w s).status.ecode = 1 ↔ supported s.support op w = false := by
  have hfn : opFn op w (operandA w s) (operandB w s) ≠ .error .invalidOp := fun h => nomatch opFn_error h
  calc (completeState op w s).status.ecode = errorCode .invalidOp
      ↔ computeResult op w s = .error .invalidOp := completeState_ecode_iff
    _ ↔ supported s.support op w = false := by simp [computeResult_error_iff, hfn]

theorem opOfField_eq_none_iff (f : BitVec 4) : opOfField f = none ↔ 12 ≤ f.toNat := by
  revert f; decide

theorem widthOfField_eq_none_iff (f : BitVec 2) : widthOfField f = none ↔ 2 ≤ f.toNat := by
  revert f; decide

/-- A word is rejected exactly if one of its three fields is: the illegal words of R89. -/
theorem decodeCommand_error_iff (word : Word) : (∃ e, decodeCommand word = .error e) ↔ IllegalWord word := by
  have hrsv : rsvField word ≠ 0 ↔ word.toNat / 64 ≠ 0 := by
    rw [Ne, rsvField_eq_zero_iff]
    omega
  rw [IllegalWord, ← opField_toNat, ← widthField_toNat, ← hrsv, ← opOfField_eq_none_iff, ← widthOfField_eq_none_iff]
  unfold decodeCommand
  by_cases h : rsvField word = 0
  · rw [if_neg (not_not.2 h)]
    cases opOfField (opField word) <;> cases widthOfField (widthField word) <;> simp [h]
  · rw [if_pos h]
    exact iff_of_true ⟨_, rfl⟩ (.inr (.inr h))

/-- The word that decodes to a command is its row of R85. -/
theorem decodeCommand_command_iff {word : Word} {op : Op} {w : Width} :
    decodeCommand word = .ok (commandInstr op w) ↔ word.toNat = opNumber op + 16 * widthNumber w := by
  constructor
  · intro h
    have hencode := (encode_commandInstr op w).symm.trans (encode_of_decodeCommand h)
    rw [← Packet.cmdw.inj hencode, toNat_ofNat_commandNumber]
  · exact fun h => (legalWordsAreTheTable word _).2 ⟨op, w, rfl, h⟩

/-- A word stands for one command. -/
theorem command_unique {word : Word} {op op' : Op} {w w' : Width}
    (h : word.toNat = opNumber op + 16 * widthNumber w) (h' : word.toNat = opNumber op' + 16 * widthNumber w') :
    op = op' ∧ w = w' := by
  obtain ⟨_, hop, hw⟩ := (fields_eq_iff word op w).2 h
  obtain ⟨_, hop', hw'⟩ := (fields_eq_iff word op' w').2 h'
  exact ⟨Option.some.inj (hop.symm.trans hop'), Option.some.inj (hw.symm.trans hw')⟩

/-- The engine's turn on a legal word looks at SUPPORTED for its one command; on an illegal word it looks no further. -/
theorem engineTurn_invalidOp_iff {s t : State} (hb : s.status.busy = true) (h : engineTurn s = .next t) :
    t.status.ecode = 1 ↔ IllegalWord s.lcmd ∨
      ∃ op w, s.lcmd.toNat = opNumber op + 16 * widthNumber w ∧ supported s.support op w = false := by
  rw [← decodeCommand_error_iff]
  rcases engineTurn_cases s with ⟨hidle, _⟩ | ⟨_, op, w, hd, run⟩ | ⟨_, hillegal, illegal⟩
  · exact absurd hb (by simp [hidle])
  · rw [run] at h
    cases h
    rw [completeState_invalidOp_iff, or_iff_right (by simp [hd])]
    have hword := decodeCommand_command_iff.1 hd
    constructor
    · exact fun hs => ⟨op, w, hword, hs⟩
    · rintro ⟨op', w', hword', hs⟩
      obtain ⟨rfl, rfl⟩ := command_unique hword hword'
      exact hs
  · rw [illegal] at h
    cases h
    exact iff_of_true rfl (.inl hillegal)

/-- Settles O8: the step is the engine's turn, whose completion with code 1 is the error completion. -/
theorem invalidOpExactlyWhenIllegalOrUnsupported : Obligations.InvalidOpExactlyWhenIllegalOrUnsupported := by
  unfold Obligations.InvalidOpExactlyWhenIllegalOrUnsupported
  intro s rest hb hinputs
  obtain ⟨t, hstep, hbusy, hdone⟩ := step_completes hb (.inr ⟨rest, hinputs⟩)
  have hturn : engineTurn (s.setInputs rest) = .next t := (step_of_engine hinputs).symm.trans hstep
  have hcompletion := engineTurn_completion (s := s.setInputs rest) hb hturn
  refine ⟨t, hstep, hbusy, hdone, engineTurn_invalidOp_iff (s := s.setInputs rest) hb hturn, fun hcode => ?_,
    hcompletion.keepsAllButResult⟩
  rw [hcompletion.eq_errorComplete (c := .invalidOp) hcode]
  exact ⟨zeroFrom_errorComplete _ _ _, errorComplete_status _ _⟩

end Sys2Proof.Proofs
end

section
/-! PROOFS. The statements of `70_reset_and_hazards.md` on reset: what one step with the reset input asserted does. -/

namespace Sys2Proof.Proofs

open Sys2Proof.Machine Sys2Proof.Laws

/-! ### Reset (R200, R201) -/

theorem step_of_reset {s : State} {rest : List Input} (h : s.inputs = .reset :: rest) :
    step s = .next (s.setInputs rest).assertReset := by
  simp [step, h]

/-- Settles O11: the step is `assertReset`, whose field rules give R38's values without a look at the state before. -/
theorem resetClearsEverything : Obligations.ResetClearsEverything := by
  unfold Obligations.ResetClearsEverything
  rintro s ⟨rest, hinputs⟩
  exact ⟨(s.setInputs rest).assertReset, step_of_reset hinputs, assertReset_a _, assertReset_b _, assertReset_cmd _,
    assertReset_status _, assertReset_r _, assertReset_la _, assertReset_lb _, assertReset_lcmd _,
    (assertReset_support _).trans (setInputs_support s rest)⟩

end Sys2Proof.Proofs
end
